-- ==== Sys2Proof/Word.lean ====
section
/-! DEFINITION. The bit widths and the number type of the machine (00_scope.md R8, R9, R10; 10_state.md R23 to R29). -/

namespace Sys2Proof

/-- A machine word: 40 bits, two slots (R8 `WORD_BITS`, R80). Position 0 of the spec is the most significant bit. -/
abbrev Word := BitVec 40

/-- One instruction slot: 20 bits (R8 `SLOT_BITS`). -/
abbrev Slot := BitVec 20

/-- An opcode: 8 bits (R8 `OPC_BITS`). -/
abbrev Opcode := BitVec 8

/-- A word address, and the value of PC and MAR: 12 bits (R8 `ADDR_BITS`, `PC_BITS`). Its arithmetic is modulo 4096. -/
abbrev Addr := BitVec 12

/-- One operand field of DISC: 4 bits (R8 `DISC_FIELD_BITS`). -/
abbrev DiscField := BitVec 4

/-- `Num`: the exact rationals (R10, R11; the spec's decision D4, log 5). -/
abbrev Number := Rat

end Sys2Proof
end

