-- ==== Sys2Proof/Config.lean ====
section
/-! DEFINITION. What an instance of the core fixes (00_scope.md R8, 10_state.md R33) and the two values the spec leaves free. The default values are in Decode.lean (opcodes) and Machine/Params.lean. -/

namespace Sys2Proof

/-- The opcode table `OPC`: one 8-bit pattern for each of the twelve mnemonic signatures (30_encoding.md R84).
It is a parameter of the model (R84: "must not hard-wire them in proofs"; D1, log 2). -/
structure OpcodeTable where
  halt      : Opcode
  loadNeg   : Opcode
  add       : Opcode
  sub       : Opcode
  loadMqMem : Opcode
  loadMq    : Opcode
  mul       : Opcode
  div       : Opcode
  jumpPlus  : Opcode
  disc      : Opcode
  sqrt      : Opcode
  stor      : Opcode
  deriving DecidableEq, Repr

/-- The parameters of R8 that the spec decides or leaves OPEN. They are held in a field of the state that nothing
writes (log 1), so that every claim about a state is a claim about every instance. -/
structure Config where
  /-- `MEM_SIZE`, the number of cells (D2). -/
  memSize   : Nat
  /-- `START_PC` = `PROG_BASE` (D28). -/
  startPc   : Addr
  /-- `HALT_PC`, the end sentinel (D28). -/
  haltPc    : Addr
  /-- `NOROOTS_PC`, the "no real roots" sentinel (D28). -/
  noRootsPc : Addr
  /-- `MAX_CYCLES`, the ceiling on word cycles (D13). -/
  maxCycles : Nat
  /-- `OPC` (D1). -/
  opc       : OpcodeTable
  /-- `SQRT_EPS`, the relative error bound of `SQRT_APPROX` (D6). -/
  sqrtEps   : Number
  deriving DecidableEq, Repr

/-- FREE VALUE (log 7): the unconstrained number behind `SQRT_APPROX` (R11, U14). It has no body: nothing can be proved
of it. `sqrtApprox` (Machine/Num.lean) keeps it inside the bound the spec sets. -/
opaque Config.sqrtFree : Number → Number

/-- FREE VALUE (log 19): the line number an `EncodingError(missing_exit)` reports, given how many lines were read.
R125 says the error carries a line number and R111 does not say which. -/
opaque Config.missingExitLine : Nat → Nat

end Sys2Proof
end

