-- ==== Sys2Proof/Syntax.lean ====
section
/-! DEFINITION. The instructions, one constructor per row of spec/opcode_table.json (30_encoding.md R84), and the source lines of the Encoder (35_encoder.md R113). -/

namespace Sys2Proof

/-- A decoded instruction (30_encoding.md R86). The operands are the fields of the slot read as unsigned numbers (R83):
12 bits for format A, three times 4 bits for format D; format N (HALT, LOAD MQ) has none, its address bits being
ignored (R88). Every operand a field can hold is a value of its type, so no `Instr` is out of range. -/
inductive Instr where
  /-- `HALT` (R201). -/
  | halt
  /-- `LOAD -M(X)` (R170). -/
  | loadNeg (x : Addr)
  /-- `ADD M(X)` (R180). -/
  | add (x : Addr)
  /-- `SUB M(X)` (R181). -/
  | sub (x : Addr)
  /-- `LOAD MQ,M(X)` (R171). -/
  | loadMqMem (x : Addr)
  /-- `LOAD MQ` (R172). -/
  | loadMq
  /-- `MUL M(X)` (R182). -/
  | mul (x : Addr)
  /-- `DIV M(X)` (R183). -/
  | div (x : Addr)
  /-- `JUMP+ M(X,0:19)` (R200). -/
  | jumpPlus (x : Addr)
  /-- `DISC M(X),M(X),M(X)` (R190). -/
  | disc (i j k : DiscField)
  /-- `SQRT M(X)` (R191). -/
  | sqrt (x : Addr)
  /-- `STOR M(X)` (R173). -/
  | stor (x : Addr)
  deriving DecidableEq, Repr

/-- `MEMOPS`, the six operations whose signature is `OP M(X)` (35_encoder.md R113). -/
inductive MemOp where
  | stor | add | sub | mul | div | sqrt
  deriving DecidableEq, Repr

/-- One instruction of a source line, its operands still decimal numbers of any size (35_encoder.md R112, R113). -/
inductive SrcInstr where
  | halt
  | jumpPlus (n : Nat)
  | disc (i j k : Nat)
  | loadMqMem (n : Nat)
  | loadMq
  | loadNeg (n : Nat)
  | mem (op : MemOp) (n : Nat)
  deriving DecidableEq, Repr

/-- A classified source line: one instruction, or two packed into one word (35_encoder.md R113). -/
inductive SrcLine where
  | single (i : SrcInstr)
  | composite (left right : SrcInstr)
  deriving DecidableEq, Repr

end Sys2Proof
end

