-- ==== Sys2Proof/WellFormed.lean ====
section
/-! DEFINITION. What a well-formed instance of the core and a well-formed source line are. A decoded `Instr` needs no check: its operand types are exactly the fields of the slot (30_encoding.md R83). -/

namespace Sys2Proof

/-- The twelve patterns of a table, in the order of R84. -/
def OpcodeTable.patterns (t : OpcodeTable) : List Opcode :=
  [t.halt, t.loadNeg, t.add, t.sub, t.loadMqMem, t.loadMq, t.mul, t.div, t.jumpPlus, t.disc, t.sqrt, t.stor]

/-- The constraints on any `OPC` (30_encoding.md R85): HALT is all zero and the twelve patterns are pairwise different. -/
abbrev OpcodeTable.WF (t : OpcodeTable) : Prop :=
  t.halt = 0#8 ∧ t.patterns.Nodup

/-- The constraints on an instance (00_scope.md R8, 40_cycle.md R142, 30_encoding.md R85): the memory size is in its
range, the two sentinels differ, the error bound of the square root is positive, the opcode table is well formed. -/
abbrev Config.WF (c : Config) : Prop :=
  511 ≤ c.memSize ∧ c.memSize ≤ 4096 ∧ c.haltPc ≠ c.noRootsPc ∧ 0 < c.sqrtEps ∧ c.opc.WF

/-- Every decimal operand fits its field: 0..4095, and 0..15 for DISC (35_encoder.md R123; D19). -/
def SrcInstr.wf : SrcInstr → Bool
  | .halt => true
  | .loadMq => true
  | .jumpPlus n => n < 4096
  | .loadMqMem n => n < 4096
  | .loadNeg n => n < 4096
  | .mem _ n => n < 4096
  | .disc i j k => i < 16 && j < 16 && k < 16

/-- Both instructions of the line are in range (35_encoder.md R123). -/
def SrcLine.wf : SrcLine → Bool
  | .single i => i.wf
  | .composite l r => l.wf && r.wf

end Sys2Proof
end

