-- ==== Sys2Proof/Decode.lean ====
section
/-! DEFINITION. Words, slots and fields (30_encoding.md R80 to R83, 00_scope.md R9), the default opcode table (R84), Decode (R86) and the encoding of an instruction (R82, R83), all in terms of an opcode table given as an argument. -/

namespace Sys2Proof

/-! ## Fields -/

/-- The left slot, positions 0..19 of the word, bits 39:20 (R81). -/
def leftSlot (w : Word) : Slot := w.extractLsb' 20 20

/-- The right slot, positions 20..39 of the word, bits 19:0 (R81). -/
def rightSlot (w : Word) : Slot := w.extractLsb' 0 20

/-- The opcode field of a slot, positions 0..7, bits 19:12 (R82). -/
def opcodeField (s : Slot) : Opcode := s.extractLsb' 12 8

/-- The address field of a slot, positions 8..19, bits 11:0 (R82). -/
def addrField (s : Slot) : Addr := s.extractLsb' 0 12

/-- DISC's first operand field `I`, bits 11:8 of the slot: `x div 256` (R82, R152). -/
def fieldI (f : Addr) : DiscField := f.extractLsb' 8 4

/-- DISC's second operand field `J`, bits 7:4 of the slot: `(x div 16) mod 16` (R82, R152). -/
def fieldJ (f : Addr) : DiscField := f.extractLsb' 4 4

/-- DISC's third operand field `K`, bits 3:0 of the slot: `x mod 16` (R82, R152). -/
def fieldK (f : Addr) : DiscField := f.extractLsb' 0 4

/-- A slot put together from its opcode and its address field, the opcode on the left (R63, R82). -/
def mkSlot (o : Opcode) (f : Addr) : Slot := o ++ f

/-- A word put together from its two slots, the left one first (R80). -/
def mkWord (l r : Slot) : Word := l ++ r

/-- The 12 bits of DISC's three operand fields, in the order i, j, k (R82). -/
def mkDiscFields (i j k : DiscField) : Addr := i ++ (j ++ k : BitVec 8)

/-- A bit string as text, position 0 (the leftmost character) the most significant bit (R9, R127). -/
def bitText {n : Nat} (b : BitVec n) : List Char :=
  (List.range n).map fun p => if b.getMsbD p then '1' else '0'

/-! ## The opcode table -/

/-- The default opcode table of R84. Only HALT's pattern is the source's; the other eleven are decision D1
(nine PRESUMED from the published IAS set, two the spec's own choice; log 2). -/
def OpcodeTable.default : OpcodeTable where
  halt      := 0b00000000#8
  loadNeg   := 0b00000010#8
  add       := 0b00000101#8
  sub       := 0b00000110#8
  loadMqMem := 0b00001001#8
  loadMq    := 0b00001010#8
  mul       := 0b00001011#8
  div       := 0b00001100#8
  jumpPlus  := 0b00001111#8
  disc      := 0b00010110#8
  sqrt      := 0b00010111#8
  stor      := 0b00100001#8

/-- The opcode of an instruction, `OPC[its signature]` (R84). -/
def Instr.opcode (t : OpcodeTable) : Instr → Opcode
  | .halt => t.halt
  | .loadNeg _ => t.loadNeg
  | .add _ => t.add
  | .sub _ => t.sub
  | .loadMqMem _ => t.loadMqMem
  | .loadMq => t.loadMq
  | .mul _ => t.mul
  | .div _ => t.div
  | .jumpPlus _ => t.jumpPlus
  | .disc _ _ _ => t.disc
  | .sqrt _ => t.sqrt
  | .stor _ => t.stor

/-! ## Decoding -/

/-- What a slot decodes to: one of the twelve instructions, or `ILLEGAL(o)` (R86, R87). -/
inductive Decoded where
  | instr (i : Instr)
  | illegal (o : Opcode)
  deriving DecidableEq, Repr

/-- `Decode(s)` of R86, total on every slot, the opcodes tried in R86's order: DISC, format A, LOAD MQ, HALT.
It depends on the opcode field alone; the address bits of LOAD MQ and HALT are ignored (R88; D14, log 15). -/
def decodeSlot (t : OpcodeTable) (s : Slot) : Decoded :=
  let o := opcodeField s
  let f := addrField s
  if o = t.disc then .instr (.disc (fieldI f) (fieldJ f) (fieldK f))
  else if o = t.loadNeg then .instr (.loadNeg f)
  else if o = t.add then .instr (.add f)
  else if o = t.sub then .instr (.sub f)
  else if o = t.loadMqMem then .instr (.loadMqMem f)
  else if o = t.mul then .instr (.mul f)
  else if o = t.div then .instr (.div f)
  else if o = t.jumpPlus then .instr (.jumpPlus f)
  else if o = t.sqrt then .instr (.sqrt f)
  else if o = t.stor then .instr (.stor f)
  else if o = t.loadMq then .instr .loadMq
  else if o = t.halt then .instr .halt
  else .illegal o

/-- The instruction a slot decodes to, if its opcode is in the table. -/
def Decoded.instr? : Decoded → Option Instr
  | .instr i => some i
  | .illegal _ => none

/-! ## Encoding -/

/-- The 12 address bits of an instruction (R82, R83); zeros for format N (R88). -/
def Instr.addrBits : Instr → Addr
  | .halt => 0#12
  | .loadNeg x => x
  | .add x => x
  | .sub x => x
  | .loadMqMem x => x
  | .loadMq => 0#12
  | .mul x => x
  | .div x => x
  | .jumpPlus x => x
  | .disc i j k => mkDiscFields i j k
  | .sqrt x => x
  | .stor x => x

/-- The slot of an instruction: its opcode, then its 12 address bits (R82, R83). -/
def encodeSlot (t : OpcodeTable) (i : Instr) : Slot := mkSlot (i.opcode t) i.addrBits

/-- The word of two instructions, left then right (R80, 35_encoder.md R122). -/
def encodePair (t : OpcodeTable) (l r : Instr) : Word := mkWord (encodeSlot t l) (encodeSlot t r)

/-- The word of one instruction: it is in the left slot and the right slot is all zero (35_encoder.md R118; D16, log 17). -/
def encodeSingle (t : OpcodeTable) (i : Instr) : Word := mkWord (encodeSlot t i) 0#20

/-! ## The opcode table's own numbering -/

/-- The instruction the decoder reads from the slot whose bits are `w`, bit 0 the least significant bit of the slot.
A row of the table has 20 bits; a number with a bit above them is no instruction (log 29). -/
def decodeTableWord (_nbits w : Nat) : Option Instr :=
  if w < 2 ^ 20 then (decodeSlot OpcodeTable.default (BitVec.ofNat 20 w)).instr? else none

end Sys2Proof
end

