-- ==== Sys2Proof/Machine/Num.lean ====
section
/-! DEFINITION. The numeric primitives over `Num` (00_scope.md R11, 42_arithmetic.md R184): exact, no width, no overflow (D4, log 5). -/

namespace Sys2Proof.Machine

/-- `neg(v)` (R11). -/
def numNeg (v : Number) : Number := -v

/-- `add(a,b)` (R11). -/
def numAdd (a b : Number) : Number := a + b

/-- `sub(a,b)` (R11). -/
def numSub (a b : Number) : Number := a - b

/-- `mul(a,b)` (R11). -/
def numMul (a b : Number) : Number := a * b

/-- `div(a,b)`, the exact quotient, used for `b ≠ 0` only (R11). -/
def numDiv (a b : Number) : Number := a / b

/-- `mod(a,b) = a - b·floor(a/b)`, used for `b ≠ 0` only (R11, R184; D5, log 6). -/
def numMod (a b : Number) : Number := a - b * ((a / b).floor : Number)

/-- The integer square root of `n`, two binary digits at a time; `fuel` is at least the number of base-4 digits. -/
def isqrtFuel : Nat → Nat → Nat
  | 0, _ => 0
  | fuel + 1, n =>
    let r := 2 * isqrtFuel fuel (n / 4)
    if (r + 1) * (r + 1) ≤ n then r + 1 else r

/-- The greatest `r` with `r·r ≤ n`. -/
def isqrt (n : Nat) : Nat := isqrtFuel (n.log2 + 1) n

/-- The rational `q ≥ 0` with `q·q = v`, where there is one (R11): in lowest terms, both parts are squares. -/
def exactRoot (v : Number) : Option Number :=
  let p := isqrt v.num.toNat
  let q := isqrt v.den
  if 0 ≤ v.num ∧ p * p = v.num.toNat ∧ q * q = v.den then some (mkRat p q) else none

/-- The two properties R11 gives `SQRT_APPROX(v) = r`: `r ≥ 0` and `|r·r - v| ≤ eps·v`. -/
def rootWithin (eps v r : Number) : Bool :=
  decide (0 ≤ r) && decide (r * r - v ≤ eps * v) && decide (v - r * r ≤ eps * v)

/-- Some number that meets R11's two properties. It only shows that there is one: `sqrtApprox` uses it for the part of
`Config.sqrtFree` that would break the bound, so that every function R11 admits, and no other, is possible (log 7). -/
def rootWitness (eps v : Number) : Number :=
  let k := eps.den.log2 + 2
  mkRat (isqrt (v.num.toNat * v.den * 4 ^ k)) (v.den * 2 ^ k)

/-- `SQRT_APPROX(v)` (R11, U14; D6, log 7): the free value where it keeps the bound. -/
def sqrtApprox (eps v : Number) : Number :=
  if rootWithin eps v (Config.sqrtFree v) then Config.sqrtFree v else rootWitness eps v

/-- `sqrt(v)`, used for `v ≥ 0` only (R11, R191): exact where the root is rational, else `SQRT_APPROX(v)`. -/
def numSqrt (eps v : Number) : Number :=
  match exactRoot v with
  | some q => q
  | none => sqrtApprox eps v

/-- The discriminant `b² - 4·a·c`, in R190's order of operations; the constant 4 is built in. -/
def numDisc (a b c : Number) : Number := numSub (numMul b b) (numMul (numMul 4 a) c)

end Sys2Proof.Machine
end

