-- ==== Sys2Proof/Machine/Flags.lean ====
section
/-! DEFINITION. The machine has no flag and no condition code (10_state.md R32; D24, log 21): no instruction writes one. The one condition an instruction tests is the sign of AC. -/

namespace Sys2Proof.Machine

/-- `ge0(v)`, the condition of JUMP+ (R11, 44_control.md R200): zero counts as non-negative. -/
def numGe0 (v : Number) : Bool := decide (0 ≤ v)

end Sys2Proof.Machine
end

