-- ==== Sys2Proof/Machine/Params.lean ====
section
/-! DEFINITION. The default parameters of the core (00_scope.md R8). -/

namespace Sys2Proof

/-- The default instance (R8): MEM_SIZE 1000 (D2, log 3), START_PC 496, HALT_PC 510, NOROOTS_PC 499 (D28, log 21),
MAX_CYCLES 10000 (D13, log 14), the default opcodes (D1, log 2), SQRT_EPS 2^-50 (D6, log 7). -/
def Config.default : Config where
  memSize   := 1000
  startPc   := 496#12
  haltPc    := 510#12
  noRootsPc := 499#12
  maxCycles := 10000
  opc       := OpcodeTable.default
  sqrtEps   := mkRat 1 (2 ^ 50)

end Sys2Proof
end

