-- ==== Sys2Proof/Machine/State.lean ====
section
/-! DEFINITION. The state of the core (10_state.md R20 to R35), its faults and halts, and the state after reset (70_reset_and_hazards.md R240). -/

namespace Sys2Proof.Machine

/-- The content of one memory location, and of MBR (00_scope.md R10): `W(w)`, `N(v)` or `U` (D7, D8; logs 8, 9). -/
inductive Cell where
  /-- `W(w)`, a 40-bit word. -/
  | word (w : Word)
  /-- `N(v)`, a number. -/
  | num (v : Number)
  /-- `U`, uninitialised. -/
  | uninit
  deriving DecidableEq, Repr

/-- Memory as the cells that are not `U`, each with its address (R34; log 8). An unlisted address holds `U` (D8, log 9). -/
abbrev Memory := List (Nat × Cell)

/-- The canonical form: addresses strictly rising, and no listed cell is `U`, which is what an unlisted address reads as. -/
def Memory.wf : Memory → Bool
  | [] => true
  | (a, c) :: m => decide (c ≠ .uninit) && m.all (fun p => decide (a < p.1)) && Memory.wf m

/-- The six phases of a word cycle (R35, 40_cycle.md R140). -/
inductive Phase where
  | fetch | decodeLeft | executeLeft | decodeRight | executeRight | advance
  deriving DecidableEq, Repr

/-- The `half` of a fault record (R30): where in the word cycle the fault was raised. -/
inductive Half where
  | fetch | left | right
  deriving DecidableEq, Repr

/-- The two causes of an `ArithmeticError` (60_exceptions.md R212). -/
inductive ArithCause where
  | divZero | sqrtNegative
  deriving DecidableEq, Repr

/-- The two causes of a `CellKindError` (60_exceptions.md R216). -/
inductive CellAccess where
  | fetch | operand
  deriving DecidableEq, Repr

/-- The engine's seven kinds of fault, each with the info R210 records. A fault of the ENGINE is a next state of the
model with `STATUS = FAULTED` (R218, log 13); it is not the model's own `Fault`, which stops the model. -/
inductive EngineFault where
  /-- `AddressError(a)` (R211). -/
  | addressError (a : Addr)
  /-- `ArithmeticError(cause)`, info the operand address (R212). -/
  | arithmeticError (cause : ArithCause) (x : Addr)
  /-- `NonTermination`, info PC (R213). -/
  | nonTermination (pc : Addr)
  /-- `IllegalInstruction(o)` (R215). -/
  | illegalInstruction (o : Opcode)
  /-- `UninitialisedRead(a)` (R214). -/
  | uninitialisedRead (a : Addr)
  /-- `CellKindError(access)`, info the address (R216). -/
  | cellKindError (access : CellAccess) (a : Addr)
  deriving DecidableEq, Repr

/-- The three terminal conditions (40_cycle.md R142, R145). -/
inductive HaltReason where
  | endSentinel | haltWord | noRealRoots
  deriving DecidableEq, Repr

/-- `STATUS` (R30; D23). -/
inductive Status where
  | idle
  | running
  | halted (reason : HaltReason)
  | faulted (fault : EngineFault) (half : Half)
  deriving DecidableEq, Repr

/-- The whole state: the tuple of R20, the sequencing state of R35 (`phase`, log 27) and the parameters of the
instance (`cfg`, the model's own field, which nothing writes; R33, log 1). -/
structure State where
  /-- PC (R23). -/
  pc     : Addr
  /-- AC (R24). -/
  ac     : Number
  /-- MQ (R25). -/
  mq     : Number
  /-- MAR (R26). -/
  mar    : Addr
  /-- IR (R27). -/
  ir     : Opcode
  /-- IBR (R28). -/
  ibr    : Slot
  /-- MBR (R29). -/
  mbr    : Cell
  /-- M (R34). -/
  mem    : Memory
  /-- STATUS (R30). -/
  status : Status
  /-- CYC (R31). -/
  cyc    : Nat
  /-- The current phase (R35). -/
  phase  : Phase
  /-- The instance's parameters (R8, R33). -/
  cfg    : Config
  deriving DecidableEq, Repr

/-- Why the MODEL stops. No instruction raises one of these: an engine fault is a next state. -/
inductive Fault where
  /-- Raised by `step` and `stepPhase` when STATUS is not RUNNING: the engine has no step (R30, R141, U17; log 28).
  Safe: nothing is said of a machine that does not move. -/
  | noStep (status : Status)
  /-- Raised by `stepPhase` at DECODE-LEFT when MBR holds no word. FETCH always leaves a word there (R144), so no run
  reaches it (log 30). Safe. -/
  | decodeWithoutWord
  deriving DecidableEq, Repr

/-- Why the model refuses. Only operations of the host refuse; no instruction does. -/
inductive Refusal where
  /-- Raised by an arm of `exec` whose instruction has no meaning yet; no arm is left that does. Safe. -/
  | notModelled (mnemonic : String)
  /-- Raised by LoadCell, LoadProgram, SetPC and Start while STATUS is RUNNING (R246, U18). Safe: the spec says no such
  move exists. -/
  | hostWhileRunning
  /-- Raised by LoadCell and LoadProgram when a cell lies outside memory (R247). Safe: the spec refuses it. -/
  | loadOutsideMemory
  /-- Raised by LoadCell when it is given `U`, which is no value the host can load (R247). Safe. -/
  | loadOfNothing
  deriving DecidableEq, Repr

/-- The state after `Reset` of the instance `c` (R240; the decisions D8, D23, D27, D31: logs 9, 24). -/
def State.resetWith (c : Config) : State where
  pc     := 0#12
  ac     := 0
  mq     := 0
  mar    := 0#12
  ir     := 0#8
  ibr    := 0#20
  mbr    := .word 0#40
  mem    := []
  status := .idle
  cyc    := 0
  phase  := .fetch
  cfg    := c

/-- The state after `Reset` of the default instance (R240, R8). -/
def State.reset : State := State.resetWith Config.default

end Sys2Proof.Machine
end

