-- ==== Sys2Proof/Machine/Ops.lean ====
section
/-! DEFINITION. The operations over memory and registers (20_memory.md R57, R58, R60), taking a fault (60_exceptions.md R218), halting (40_cycle.md R142, R145) and the two ways PC moves. -/

namespace Sys2Proof.Machine

/-! ## Memory cells -/

/-- The cell at an address; `U` where nothing is listed (R34, R58; D8, log 9). -/
def Memory.read : Memory → Nat → Cell
  | [], _ => .uninit
  | (b, c) :: m, a => if a = b then c else Memory.read m a

/-- Put a cell in front of a list, unless it is `U`, which is not listed. -/
def Memory.put (a : Nat) (c : Cell) (m : Memory) : Memory :=
  if c = .uninit then m else (a, c) :: m

/-- Memory with the cell at one address replaced, the canonical form kept. -/
def Memory.write : Memory → Nat → Cell → Memory
  | [], a, c => Memory.put a c []
  | (b, d) :: m, a, c =>
    if a < b then Memory.put a c ((b, d) :: m)
    else if a = b then Memory.put a c m
    else (b, d) :: Memory.write m a c

/-- The words `ws` written to the cells from `a` on, as `W` cells (R247 `LoadProgram`). -/
def Memory.writeWords : Memory → Nat → List Word → Memory
  | m, _, [] => m
  | m, a, w :: ws => Memory.writeWords (m.write a (.word w)) (a + 1) ws

/-- The word of a `W` cell. -/
def Cell.word? : Cell → Option Word
  | .word w => some w
  | .num _ => none
  | .uninit => none

/-- The number of an `N` cell. -/
def Cell.num? : Cell → Option Number
  | .word _ => none
  | .num v => some v
  | .uninit => none

/-! ## Accesses -/

/-- What every access leaves: MAR holds the address, MBR the cell moved (R26, R29, R58, R60; D9, log 10). -/
def State.noteAccess (s : State) (a : Addr) (c : Cell) : State :=
  { s with mar := a, mbr := c }

/-- `MemRead(a, 1)` of R58. A read that raises returns no state, so none of its writes is made (R218). -/
def State.memRead (s : State) (a : Addr) : Except EngineFault (Cell × State) :=
  if s.cfg.memSize ≤ a.toNat then .error (.addressError a)
  else
    match s.mem.read a.toNat with
    | .uninit => .error (.uninitialisedRead a)
    | .word w => .ok (.word w, s.noteAccess a (.word w))
    | .num v => .ok (.num v, s.noteAccess a (.num v))

/-- `MemWrite(a, 1, c)` of R60: the old cell is not read. -/
def State.memWrite (s : State) (a : Addr) (c : Cell) : Except EngineFault State :=
  if s.cfg.memSize ≤ a.toNat then .error (.addressError a)
  else .ok { s.noteAccess a c with mem := s.mem.write a.toNat c }

/-! ## Taking a fault, and halting -/

/-- The half a phase belongs to (40_cycle.md R144, R146, R148, R150). The decodes and ADVANCE cannot fault
(R147, R149, R151), so only FETCH and the two EXECUTE phases matter. -/
def Phase.half : Phase → Half
  | .fetch => .fetch
  | .decodeLeft => .left
  | .executeLeft => .left
  | .decodeRight => .right
  | .executeRight => .right
  | .advance => .right

/-- `raise F` in the given half (R218; D12, log 13): STATUS is written and nothing else. The sequencing state returns to
FETCH, where every run starts (R35; log 27). There is no handler, and no return from a fault (R221): only the host's
Start or Reset leaves it. -/
def State.raiseIn (s : State) (h : Half) (f : EngineFault) : State :=
  { s with status := .faulted f h, phase := .fetch }

/-- `raise F` in the phase the engine is in (R148, R150, R218). -/
def State.raise (s : State) (f : EngineFault) : State := s.raiseIn s.phase.half f

/-- The end of an EXECUTE phase: the state its meaning reached, or, where it raised a fault, the state BEFORE it with
the fault taken (R218: a phase that raises performs none of its own writes). -/
def State.completePhase (s : State) (r : Except EngineFault State) : Host.Outcome State Fault Refusal :=
  match r with
  | .ok t => .next t
  | .error f => .next (s.raise f)

/-- A terminal condition (R142, R145): STATUS is written; the sequencing state is FETCH. -/
def State.halt (s : State) (r : HaltReason) : State :=
  { s with status := .halted r, phase := .fetch }

/-! ## The program counter -/

/-- A taken jump to word `x`: `PC <- (x - 1) mod 4096` (44_control.md R200; D3, log 4). -/
def State.jumpTo (s : State) (x : Addr) : State := { s with pc := x - 1#12 }

end Sys2Proof.Machine
end

