-- ==== Sys2Proof/Machine/Operands.lean ====
section
/-! DEFINITION. The operand forms: there is one addressing mode, absolute (20_memory.md R62), and two kinds of read, of a number (R59) and of an instruction word (R61). -/

namespace Sys2Proof.Machine

/-- `MemReadNum(a)` of R59: the operand read of every instruction that reads a number (D7, log 8). -/
def State.memReadNum (s : State) (a : Addr) : Except EngineFault (Number × State) :=
  match s.memRead a with
  | .error f => .error f
  | .ok (c, t) =>
    match c.num? with
    | some v => .ok (v, t)
    | none => .error (.cellKindError .operand a)

/-- `MemReadWord(a)` of R61: the instruction fetch read (D7, log 8). -/
def State.memReadWord (s : State) (a : Addr) : Except EngineFault (Word × State) :=
  match s.memRead a with
  | .error f => .error f
  | .ok (c, t) =>
    match c.word? with
    | some w => .ok (w, t)
    | none => .error (.cellKindError .fetch a)

/-- An EXECUTE phase that reads one number and goes on with it in `k`, which may raise a fault of its own. -/
def State.withOperand (s : State) (x : Addr) (k : Number → State → Except EngineFault State) :
    Host.Outcome State Fault Refusal :=
  s.completePhase <|
    match s.memReadNum x with
    | .error f => .error f
    | .ok (v, t) => k v t

/-- The three reads of DISC, in field order i, j, k (43_extensions.md R190; D26, log 23). The fields are 4 bits wide
and address cells 0..15 (20_memory.md R51). -/
def State.readThree (s : State) (i j k : DiscField) : Except EngineFault (Number × Number × Number × State) :=
  match s.memReadNum (i.setWidth 12) with
  | .error f => .error f
  | .ok (a, s₁) =>
    match s₁.memReadNum (j.setWidth 12) with
    | .error f => .error f
    | .ok (b, s₂) =>
      match s₂.memReadNum (k.setWidth 12) with
      | .error f => .error f
      | .ok (c, s₃) => .ok (a, b, c, s₃)

end Sys2Proof.Machine
end

