-- ==== Sys2Proof/Machine/Arithmetic.lean ====
section
/-! DEFINITION. ADD M(X), SUB M(X), MUL M(X), DIV M(X) (42_arithmetic.md R180 to R183). -/

namespace Sys2Proof.Machine

/-- ADD M(X) (R180): `AC <- AC + M[x]`. -/
def execAdd (x : Addr) (s : State) : Host.Outcome State Fault Refusal :=
  s.withOperand x fun v t => .ok { t with ac := numAdd t.ac v }

/-- SUB M(X) (R181): `AC <- AC - M[x]`. -/
def execSub (x : Addr) (s : State) : Host.Outcome State Fault Refusal :=
  s.withOperand x fun v t => .ok { t with ac := numSub t.ac v }

/-- MUL M(X) (R182): `AC <- M[x]`, then `MQ <- AC·MQ` with the new AC. -/
def execMul (x : Addr) (s : State) : Host.Outcome State Fault Refusal :=
  s.withOperand x fun v t => .ok { t with ac := v, mq := numMul v t.mq }

/-- DIV M(X) (R183): `MQ <- AC / M[x]`, `AC <- AC mod M[x]`, both from the old AC; a zero operand raises
`ArithmeticError(div_zero, x)`. -/
def execDiv (x : Addr) (s : State) : Host.Outcome State Fault Refusal :=
  s.withOperand x fun v t =>
    if v = 0 then .error (.arithmeticError .divZero x)
    else .ok { t with mq := numDiv t.ac v, ac := numMod t.ac v }

end Sys2Proof.Machine
end

