-- ==== Sys2Proof/Machine/Control.lean ====
section
/-! DEFINITION. JUMP+ M(X,0:19) and HALT in a slot (44_control.md R200, R201). -/

namespace Sys2Proof.Machine

/-- JUMP+ M(X,0:19) (R200): `if AC ≥ 0 then PC <- (x - 1) mod 4096`; no memory access, and x is not checked here
(D15, log 16). -/
def execJumpPlus (x : Addr) (s : State) : Host.Outcome State Fault Refusal :=
  .next (if numGe0 s.ac then s.jumpTo x else s)

/-- HALT in a slot (R201 (b)): no effect. As the whole word `0^40` it stops the engine at FETCH (R145, `fetchWord`). -/
def execHalt (s : State) : Host.Outcome State Fault Refusal :=
  .next s

end Sys2Proof.Machine
end

