-- ==== Sys2Proof/Machine/DataTransfer.lean ====
section
/-! DEFINITION. LOAD -M(X), LOAD MQ,M(X), LOAD MQ, STOR M(X) (41_data_transfer.md R170 to R173). -/

namespace Sys2Proof.Machine

/-- LOAD -M(X) (R170): `AC <- -M[x]`. -/
def execLoadNeg (x : Addr) (s : State) : Host.Outcome State Fault Refusal :=
  s.withOperand x fun v t => .ok { t with ac := numNeg v }

/-- LOAD MQ,M(X) (R171): `MQ <- M[x]`. -/
def execLoadMqMem (x : Addr) (s : State) : Host.Outcome State Fault Refusal :=
  s.withOperand x fun v t => .ok { t with mq := v }

/-- LOAD MQ (R172): `AC <- MQ`, no memory access. -/
def execLoadMq (s : State) : Host.Outcome State Fault Refusal :=
  .next { s with ac := s.mq }

/-- STOR M(X) (R173): `M[x] <- AC`, as the number `N(AC)`. -/
def execStor (x : Addr) (s : State) : Host.Outcome State Fault Refusal :=
  s.completePhase (s.memWrite x (.num s.ac))

end Sys2Proof.Machine
end

