-- ==== Sys2Proof/Machine/Extensions.lean ====
section
/-! DEFINITION. DISC M(X),M(X),M(X) and SQRT M(X) (43_extensions.md R190, R191). -/

namespace Sys2Proof.Machine

/-- DISC M(X),M(X),M(X) (R190): `AC <- M[j]² - 4·M[i]·M[k]`. -/
def execDisc (i j k : DiscField) (s : State) : Host.Outcome State Fault Refusal :=
  s.completePhase <|
    match s.readThree i j k with
    | .error f => .error f
    | .ok (a, b, c, t) => .ok { t with ac := numDisc a b c }

/-- SQRT M(X) (R191): `AC <- √M[x]`; a negative operand raises `ArithmeticError(sqrt_negative, x)`. -/
def execSqrt (x : Addr) (s : State) : Host.Outcome State Fault Refusal :=
  s.withOperand x fun v t =>
    if v < 0 then .error (.arithmeticError .sqrtNegative x)
    else .ok { t with ac := numSqrt t.cfg.sqrtEps v }

end Sys2Proof.Machine
end

