-- ==== Sys2Proof/Machine/Dispatch.lean ====
section
/-! DEFINITION. The dispatch of `Exec` (40_cycle.md R152): one arm per instruction. -/

namespace Sys2Proof.Machine

def exec (i : Instr) (s : State) : Host.Outcome State Fault Refusal :=
  match i with
  | .halt => Sys2Proof.Machine.execHalt s
  | .loadNeg x => Sys2Proof.Machine.execLoadNeg x s
  | .add x => Sys2Proof.Machine.execAdd x s
  | .sub x => Sys2Proof.Machine.execSub x s
  | .loadMqMem x => Sys2Proof.Machine.execLoadMqMem x s
  | .loadMq => Sys2Proof.Machine.execLoadMq s
  | .mul x => Sys2Proof.Machine.execMul x s
  | .div x => Sys2Proof.Machine.execDiv x s
  | .jumpPlus x => Sys2Proof.Machine.execJumpPlus x s
  | .disc a b c => Sys2Proof.Machine.execDisc a b c s
  | .sqrt x => Sys2Proof.Machine.execSqrt x s
  | .stor x => Sys2Proof.Machine.execStor x s

end Sys2Proof.Machine
end

