-- ==== Sys2Proof/Machine/Cycle.lean ====
section
/-! DEFINITION. The word cycle: its six phases, the terminal conditions, StepWord (40_cycle.md R140 to R153), and the same cycle taken one phase at a time (R140, 10_state.md R35). -/

namespace Sys2Proof.Machine

/-! ## The phases -/

/-- FETCH, with the tests before and after it, in the order of R141 lines 1 to 5 (R142, R144, R145, R146; D10, log 11):
the two sentinels, the fetch and its faults, the HALT word, the ceiling. Either the word to execute and the state
that goes on, or the state the engine stops in. -/
def State.fetchWord (s : State) : Except State (Word × State) :=
  if s.pc = s.cfg.haltPc then .error (s.halt .endSentinel)
  else if s.pc = s.cfg.noRootsPc then .error (s.halt .noRealRoots)
  else
    match s.memReadWord s.pc with
    | .error f => .error (s.raiseIn .fetch f)
    | .ok (w, t) =>
      if w = 0#40 then .error (t.halt .haltWord)
      else if t.cfg.maxCycles ≤ t.cyc then .error (t.raiseIn .fetch (.nonTermination t.pc))
      else .ok (w, { t with phase := .decodeLeft })

/-- DECODE-LEFT (R147). -/
def State.decodeLeft (s : State) (w : Word) : State :=
  { s with ir := opcodeField (leftSlot w), mar := addrField (leftSlot w), ibr := rightSlot w, phase := .executeLeft }

/-- DECODE-RIGHT (R149): from IBR, never from memory or MBR. -/
def State.decodeRight (s : State) : State :=
  { s with ir := opcodeField s.ibr, mar := addrField s.ibr, phase := .executeRight }

/-- `Exec(IR, MAR)` (R152): the slot in IR and MAR is decoded and its instruction executed; an opcode outside the
table raises `IllegalInstruction(o)` (R215; D11, log 12). -/
def State.execHalf (s : State) : Host.Outcome State Fault Refusal :=
  match decodeSlot s.cfg.opc (mkSlot s.ir s.mar) with
  | .instr i => exec i s
  | .illegal o => .next (s.raise (.illegalInstruction o))

/-- ADVANCE (R151). -/
def State.advance (s : State) : State :=
  { s with pc := s.pc + 1#12, cyc := s.cyc + 1, phase := .fetch }

/-! ## The word cycle -/

/-- Go on with `k` where the engine is still RUNNING; a phase that raised a fault ends the word cycle (R148, R150). -/
def whileRunning (o : Host.Outcome State Fault Refusal) (k : State → Host.Outcome State Fault Refusal) :
    Host.Outcome State Fault Refusal :=
  match o with
  | .next t => if t.status = .running then k t else .next t
  | .fault f => .fault f
  | .refused r => .refused r

/-- `StepWord` (R141), defined only when STATUS is RUNNING; in every other status the engine has no step
(R30, U17; log 28). -/
def State.stepWord (s : State) : Host.Outcome State Fault Refusal :=
  if s.status = .running then
    match s.fetchWord with
    | .error t => .next t
    | .ok (w, s₁) =>
      whileRunning (s₁.decodeLeft w).execHalf fun s₂ =>
        whileRunning s₂.decodeRight.execHalf fun s₃ =>
          .next s₃.advance
  else .fault (.noStep s.status)

/-! ## The same cycle, one phase a step -/

/-- One phase of the word cycle, the one `phase` names (R35, R140 "or take each phase as a transition"). -/
def State.stepPhase (s : State) : Host.Outcome State Fault Refusal :=
  if s.status = .running then
    match s.phase with
    | .fetch =>
      match s.fetchWord with
      | .error t => .next t
      | .ok (_, t) => .next t
    | .decodeLeft =>
      match s.mbr.word? with
      | some w => .next (s.decodeLeft w)
      | none => .fault .decodeWithoutWord
    | .executeLeft => whileRunning s.execHalf fun t => .next { t with phase := .decodeRight }
    | .decodeRight => .next s.decodeRight
    | .executeRight => whileRunning s.execHalf fun t => .next { t with phase := .advance }
    | .advance => .next s.advance
  else .fault (.noStep s.status)

/-- `n` phases, ending early where the engine stops. -/
def runPhases : Nat → State → Host.Outcome State Fault Refusal
  | 0, s => .next s
  | n + 1, s => whileRunning s.stepPhase (runPhases n)

/-! ## Placing one instruction where the next step fetches -/

/-- Whether a fetch at `p` is reached and reads a cell: no sentinel, and inside memory (R142, R144). -/
def fetchableAt (c : Config) (p : Addr) : Bool :=
  decide (p ≠ c.haltPc) && decide (p ≠ c.noRootsPc) && decide (p.toNat < c.memSize)

/-- What the host does to have one instruction run next (R247, R248, R249; log 29): the word of that one instruction
(R118) is loaded where PC points, or at START_PC where PC points at no fetchable cell, and the engine is started. -/
def State.placeSlot (s : State) (slot : Slot) : State :=
  let p := if fetchableAt s.cfg s.pc then s.pc else s.cfg.startPc
  { s with
    pc := p
    mem := s.mem.write p.toNat (.word (mkWord slot 0#20))
    status := .running
    cyc := 0
    phase := .fetch }

end Sys2Proof.Machine
end

