-- ==== Sys2Proof/Machine/Step.lean ====
section
/-! DEFINITION. The step of the machine: one word cycle is one transition (40_cycle.md R140, 70_reset_and_hazards.md R262; D29, log 25). -/

namespace Sys2Proof.Machine

/-- One step: `StepWord` (R141). -/
def step : State → Host.Outcome State Fault Refusal := State.stepWord

/-- The state with one instruction of the opcode table stored where `step` fetches next, and the engine running. A row
of the table is one slot of 20 bits; the word's other slot is all zero (R118; log 29). -/
def State.withFetchWord (s : State) (_nbits w : Nat) : State := s.placeSlot (BitVec.ofNat 20 w)

end Sys2Proof.Machine
end

