-- ==== Sys2Proof/Machine/Encoder.lean ====
section
/-! DEFINITION. The mnemonic encoder, a pure function from source lines to words (35_encoder.md R110 to R127). A line is a list of characters. -/

namespace Sys2Proof.Machine

/-! ## Tokens (R112; D20, log 18) -/

/-- A token: the characters between two runs of blanks. -/
abbrev Token := List Char

/-- Space or tab. -/
def isBlank (c : Char) : Bool := c = ' ' || c = '\t'

/-- The tokens of a line: it is split at runs of blanks, leading and trailing blanks ignored. -/
def tokens : List Char → List Token
  | [] => []
  | c :: cs =>
    if isBlank c then tokens cs
    else
      match cs with
      | [] => [[c]]
      | d :: _ =>
        if isBlank d then [c] :: tokens cs
        else
          match tokens cs with
          | [] => [[c]]
          | t :: ts => (c :: t) :: ts

/-! ## Reading the operand tokens -/

/-- What is left after the literal characters `p`, if the text begins with them. -/
def readLit : List Char → List Char → Option (List Char)
  | [], cs => some cs
  | _ :: _, [] => none
  | p :: ps, c :: cs => if p = c then readLit ps cs else none

/-- The longest run of characters `0`..`9` at the front, and the rest. -/
def digitRun : List Char → List Char × List Char
  | [] => ([], [])
  | c :: cs => if c.isDigit then (c :: (digitRun cs).1, (digitRun cs).2) else ([], c :: cs)

/-- The value of a run of digits in base ten; leading zeros count for nothing. -/
def decValue (ds : List Char) : Nat := ds.foldl (fun n c => 10 * n + (c.toNat - '0'.toNat)) 0

/-- A `DEC`: one or more digits, no sign. -/
def readDec (cs : List Char) : Option (Nat × List Char) :=
  if (digitRun cs).1 = [] then none else some (decValue (digitRun cs).1, (digitRun cs).2)

/-- `M(` DEC `)` at the front, and the rest. -/
def readMref (cs : List Char) : Option (Nat × List Char) := do
  let cs ← readLit ['M', '('] cs
  let (n, cs) ← readDec cs
  let cs ← readLit [')'] cs
  return (n, cs)

/-- A token that is `MREF`: `M(` DEC `)`. -/
def tokMref (t : Token) : Option Nat := do
  let (n, rest) ← readMref t
  if rest = [] then some n else none

/-- A token that is `NEGMREF`: `-M(` DEC `)`, with the hyphen-minus of the grammar (90_conflicts.md C9). -/
def tokNegMref (t : Token) : Option Nat := do
  let t ← readLit ['-'] t
  tokMref t

/-- A token that is `MQMREF`: `MQ,M(` DEC `)`. -/
def tokMqMref (t : Token) : Option Nat := do
  let t ← readLit ['M', 'Q', ','] t
  tokMref t

/-- A token that is `JREF`: `M(` DEC `,0:19)`. -/
def tokJref (t : Token) : Option Nat := do
  let t ← readLit ['M', '('] t
  let (n, rest) ← readDec t
  if rest = [',', '0', ':', '1', '9', ')'] then some n else none

/-- A token that is `DREF`: three `M(` DEC `)` with commas between. -/
def tokDref (t : Token) : Option (Nat × Nat × Nat) := do
  let (i, t) ← readMref t
  let t ← readLit [','] t
  let (j, t) ← readMref t
  let t ← readLit [','] t
  let k ← tokMref t
  return (i, j, k)

/-! ## Classification (R113) -/

/-- The mnemonic of a `MEMOPS` operation. -/
def memOpName : MemOp → Token
  | .stor => ['S', 'T', 'O', 'R']
  | .add => ['A', 'D', 'D']
  | .sub => ['S', 'U', 'B']
  | .mul => ['M', 'U', 'L']
  | .div => ['D', 'I', 'V']
  | .sqrt => ['S', 'Q', 'R', 'T']

/-- The `MEMOPS` operation a token names; tokens are compared exactly, in upper case (R112). -/
def memOp? (t : Token) : Option MemOp :=
  [MemOp.stor, .add, .sub, .mul, .div, .sqrt].find? fun op => memOpName op = t

/-- The two-token forms of R113, rows 2 to 7. -/
def classifyTwo (op arg : Token) : Option SrcInstr :=
  if op = ['J', 'U', 'M', 'P', '+'] then (tokJref arg).map .jumpPlus
  else if op = ['D', 'I', 'S', 'C'] then (tokDref arg).map fun (i, j, k) => .disc i j k
  else if op = ['L', 'O', 'A', 'D'] then
    match tokMqMref arg with
    | some n => some (.loadMqMem n)
    | none => if arg = ['M', 'Q'] then some .loadMq else (tokNegMref arg).map .loadNeg
  else
    match memOp? op with
    | some m => (tokMref arg).map (.mem m)
    | none => none

/-- The four-token forms of R113, rows 8 to 10 (R122; D18, log 17): the left half is a two-token form LOAD -M(i) or
OP1 M(i), the right half OP2 M(j), or LOAD MQ after MUL. -/
def classifyFour (op₁ arg₁ op₂ arg₂ : Token) : Option SrcLine :=
  match classifyTwo op₁ arg₁, classifyTwo op₂ arg₂ with
  | some (.loadNeg i), some (.mem m j) => some (.composite (.loadNeg i) (.mem m j))
  | some (.mem .mul i), some .loadMq => some (.composite (.mem .mul i) .loadMq)
  | some (.mem l i), some (.mem m j) => some (.composite (.mem l i) (.mem m j))
  | _, _ => none

/-- The form of a line, from its tokens (R113); none is `unknown_signature`. -/
def classify : List Token → Option SrcLine
  | [t] => if t = ['H', 'A', 'L', 'T'] then some (.single .halt) else none
  | [op, arg] => (classifyTwo op arg).map .single
  | [op₁, arg₁, op₂, arg₂] => classifyFour op₁ arg₁ op₂ arg₂
  | _ => none

/-! ## Encoding a line (R114 to R123) -/

/-- The instruction of a source instruction whose operands fit their fields. -/
def toInstr : SrcInstr → Instr
  | .halt => .halt
  | .jumpPlus n => .jumpPlus (BitVec.ofNat 12 n)
  | .disc i j k => .disc (BitVec.ofNat 4 i) (BitVec.ofNat 4 j) (BitVec.ofNat 4 k)
  | .loadMqMem n => .loadMqMem (BitVec.ofNat 12 n)
  | .loadMq => .loadMq
  | .loadNeg n => .loadNeg (BitVec.ofNat 12 n)
  | .mem .stor n => .stor (BitVec.ofNat 12 n)
  | .mem .add n => .add (BitVec.ofNat 12 n)
  | .mem .sub n => .sub (BitVec.ofNat 12 n)
  | .mem .mul n => .mul (BitVec.ofNat 12 n)
  | .mem .div n => .div (BitVec.ofNat 12 n)
  | .mem .sqrt n => .sqrt (BitVec.ofNat 12 n)

/-- The word of a classified line: one instruction in the left slot with a zero right slot (R118), or two (R122). -/
def encodeSrc (t : OpcodeTable) : SrcLine → Word
  | .single i => encodeSingle t (toInstr i)
  | .composite l r => encodePair t (toInstr l) (toInstr r)

/-- The three causes of an `EncodingError` (R125). -/
inductive EncodingCause where
  | unknownSignature | operandRange | missingExit
  deriving DecidableEq, Repr

/-- An `EncodingError`: its cause and the 1-based number of the line (R125). It is no fault of the engine and never
appears in STATUS (60_exceptions.md R217). -/
structure EncodingError where
  cause : EncodingCause
  line  : Nat
  deriving DecidableEq, Repr

/-- `EncodeLine` (R113, R123): no form is `unknown_signature`; an operand too wide for its field is `operand_range`
(D19, log 18). -/
def encodeLine (t : OpcodeTable) (line : List Char) : Except EncodingCause Word :=
  match classify (tokens line) with
  | none => .error .unknownSignature
  | some l => if l.wf then .ok (encodeSrc t l) else .error .operandRange

/-! ## Encoding a program (R111) -/

/-- The lines from number `n` on, up to the first `EXIT`; the first error ends the encoding (R111; D21, log 18). -/
def encodeFrom (t : OpcodeTable) : Nat → List (List Char) → Except EncodingError (List Word)
  | n, [] => .error ⟨.missingExit, Config.missingExitLine (n - 1)⟩
  | n, l :: ls =>
    if tokens l = [['E', 'X', 'I', 'T']] then .ok []
    else
      match encodeLine t l with
      | .error c => .error ⟨c, n⟩
      | .ok w =>
        match encodeFrom t (n + 1) ls with
        | .error e => .error e
        | .ok ws => .ok (w :: ws)

/-- `EncodeProgram(lines)` (R110, R111): the words in line order, or an `EncodingError` and no words. -/
def encodeProgram (t : OpcodeTable) (lines : List (List Char)) : Except EncodingError (List Word) :=
  encodeFrom t 1 lines

/-- `EncodeProgram` on text. -/
def encodeText (t : OpcodeTable) (lines : List String) : Except EncodingError (List Word) :=
  encodeProgram t (lines.map String.toList)

/-- A finished program as text: one string of 40 characters `0`/`1` for each word (R110, R127). -/
def programText (ws : List Word) : List (List Char) := ws.map bitText

end Sys2Proof.Machine
end

