-- ==== Sys2Proof/Machine/HostPort.lean ====
section
/-! DEFINITION. What the host can do to the core, and read from it (70_reset_and_hazards.md R245 to R252; D25, log 22). These operations are no steps of the engine: `step` never performs one. -/

namespace Sys2Proof.Machine

/-- A write of the host, allowed while STATUS is not RUNNING (R246, U18). -/
def State.hostWrite (s : State) (r : Host.Outcome State Fault Refusal) : Host.Outcome State Fault Refusal :=
  if s.status = .running then .refused .hostWhileRunning else r

/-- `Reset`, in any status (R245): the state of R240, of the same instance. -/
def State.hostReset (s : State) : State := State.resetWith s.cfg

/-- `LoadCell(a, c)` (R247), `c` a word or a number. -/
def State.loadCell (s : State) (a : Nat) (c : Cell) : Host.Outcome State Fault Refusal :=
  s.hostWrite <|
    if s.cfg.memSize ≤ a then .refused .loadOutsideMemory
    else if c = .uninit then .refused .loadOfNothing
    else .next { s with mem := s.mem.write a c }

/-- `LoadProgram(base, ws)` (R247), refused as a whole where it does not fit. -/
def State.loadProgram (s : State) (base : Nat) (ws : List Word) : Host.Outcome State Fault Refusal :=
  s.hostWrite <|
    if s.cfg.memSize < base + ws.length then .refused .loadOutsideMemory
    else .next { s with mem := s.mem.writeWords base ws }

/-- `SetPC(p)` (R248). -/
def State.setPc (s : State) (p : Addr) : Host.Outcome State Fault Refusal :=
  s.hostWrite (.next { s with pc := p })

/-- `Start` (R249): STATUS and CYC are written and nothing else changes; the sequencing state is FETCH (R35, R154). -/
def State.start (s : State) : Host.Outcome State Fault Refusal :=
  s.hostWrite (.next { s with status := .running, cyc := 0, phase := .fetch })

/-- One operation of the host after another, ending at the first that is refused. -/
def hostThen (o : Host.Outcome State Fault Refusal) (k : State → Host.Outcome State Fault Refusal) :
    Host.Outcome State Fault Refusal :=
  match o with
  | .next t => k t
  | .fault f => .fault f
  | .refused r => .refused r

/-- The conventional boot of the quadratic program (R252): Reset, the encoded words at START_PC, the coefficients in
cells 0 to 2, the constants 4 and 2 in cells 5 and 6, SetPC, Start. -/
def State.bootQuadratic (s : State) (ws : List Word) (a b c : Number) : Host.Outcome State Fault Refusal :=
  let p := s.cfg.startPc
  hostThen (s.hostReset.loadProgram p.toNat ws) fun s =>
  hostThen (s.loadCell 0 (.num a)) fun s =>
  hostThen (s.loadCell 1 (.num b)) fun s =>
  hostThen (s.loadCell 2 (.num c)) fun s =>
  hostThen (s.loadCell 5 (.num 4)) fun s =>
  hostThen (s.loadCell 6 (.num 2)) fun s =>
  hostThen (s.setPc p) State.start

/-- What the host reports at the end of a run (R250). -/
inductive RunReport where
  /-- The two cells where the roots are, after `END_SENTINEL` or `HALT_WORD`. -/
  | results (cell8 cell9 : Cell)
  /-- After `NO_REAL_ROOTS`. -/
  | noRealRoots
  /-- After a fault. -/
  | error (fault : EngineFault) (half : Half)
  /-- The run has not ended (or none has begun). -/
  | notEnded
  deriving DecidableEq, Repr

/-- Reading the results out (R250); the host may also read any field of the state between word cycles (R246). -/
def State.readResults (s : State) : RunReport :=
  match s.status with
  | .halted .endSentinel => .results (s.mem.read 8) (s.mem.read 9)
  | .halted .haltWord => .results (s.mem.read 8) (s.mem.read 9)
  | .halted .noRealRoots => .noRealRoots
  | .faulted f h => .error f h
  | .idle => .notEnded
  | .running => .notEnded

end Sys2Proof.Machine
end

