-- ==== Sys2Proof/Safety.lean ====
section
/-! DEFINITION. The invariant of the machine, and the ends of a run (40_cycle.md R154, R155). -/

namespace Sys2Proof.Machine

/-- Every listed cell exists: its address is below MEM_SIZE (20_memory.md R50). -/
def Memory.within (m : Memory) (size : Nat) : Bool := m.all fun p => decide (p.1 < size)

/-- What holds in every state a run reaches: memory is in canonical form (log 8) and inside the address space (R50),
CYC is at most MAX_CYCLES (R31), and the engine is between word cycles (R35). -/
abbrev State.Inv (s : State) : Prop :=
  s.mem.wf = true ∧ s.mem.within s.cfg.memSize = true ∧ s.cyc ≤ s.cfg.maxCycles ∧ s.phase = .fetch

/-- A successful end of a run (R155): END_SENTINEL or HALT_WORD. -/
abbrev State.Successful (s : State) : Prop :=
  s.status = .halted .endSentinel ∨ s.status = .halted .haltWord

/-- The run has ended: the engine is no longer RUNNING (R154). -/
abbrev State.Stopped (s : State) : Prop := s.status ≠ .running

/-- `StepWord` repeated while STATUS is RUNNING, at most `n` times (R154, R249). -/
def runWords : Nat → State → Host.Outcome State Fault Refusal
  | 0, s => .next s
  | n + 1, s => whileRunning (step s) (runWords n)

end Sys2Proof.Machine
end

