-- ==== Sys2Proof/Certificates/Slice0/Obligations.lean ====
section
/-! DEFINITION. The statements about this model, one definition each. Nothing is proved here. The first part names what several statements share: states written out field by field, and the spec's tables. -/

namespace Sys2Proof.Machine

/-! ## What several statements share -/

/-- The state after the fault `f` was taken in state `s` (60_exceptions.md R218): STATUS is written, in the half the
engine is in, the sequencing state is FETCH (log 27), nothing else changes. -/
def faultState (s : State) (f : EngineFault) : State :=
  { s with status := .faulted f s.phase.half, phase := .fetch }

/-- The same with the half given. -/
def faultStateIn (s : State) (h : Half) (f : EngineFault) : State :=
  { s with status := .faulted f h, phase := .fetch }

/-- The three faults of an operand read at `x` (20_memory.md R58, R59), for the instruction `i`: which one is raised,
and that it changes nothing but STATUS (and the sequencing state). -/
def OperandFaults (i : Instr) (x : Addr) (s : State) : Prop :=
  (s.cfg.memSize ≤ x.toNat → exec i s = .next (faultState s (.addressError x))) ∧
  (x.toNat < s.cfg.memSize → s.mem.read x.toNat = .uninit →
    exec i s = .next (faultState s (.uninitialisedRead x))) ∧
  (∀ w, x.toNat < s.cfg.memSize → s.mem.read x.toNat = .word w →
    exec i s = .next (faultState s (.cellKindError .operand x)))

/-- What an operand read of a cell raises, if anything, once its address exists (R58, R59). -/
def cellFault (c : Cell) (a : Addr) : Option EngineFault :=
  match c with
  | .uninit => some (.uninitialisedRead a)
  | .word _ => some (.cellKindError .operand a)
  | .num _ => none

/-- The engine is RUNNING, PC is no sentinel, and the word `w`, not the HALT word, is at PC, below the ceiling: FETCH
goes on to DECODE-LEFT (40_cycle.md R141, lines 1 to 5). -/
def ReadyToExecute (s : State) (w : Word) : Prop :=
  s.status = .running ∧ s.pc ≠ s.cfg.haltPc ∧ s.pc ≠ s.cfg.noRootsPc ∧ s.pc.toNat < s.cfg.memSize ∧
  s.mem.read s.pc.toNat = .word w ∧ w ≠ 0#40 ∧ s.cyc < s.cfg.maxCycles

/-- The state EXECUTE-LEFT begins in: after FETCH (R144) and DECODE-LEFT (R147), with the fields as bits of the word
(30_encoding.md R81). -/
def afterDecodeLeft (s : State) (w : Word) : State :=
  { s with
    mbr := .word w
    ir := w.extractLsb' 32 8
    mar := w.extractLsb' 20 12
    ibr := w.extractLsb' 0 20
    phase := .executeLeft }

/-- The state EXECUTE-RIGHT begins in, `t` being where EXECUTE-LEFT ended: after DECODE-RIGHT (R149), the fields those
of the word that was fetched, whatever EXECUTE-LEFT did to memory and MBR. -/
def afterDecodeRight (t : State) (w : Word) : State :=
  { t with ir := w.extractLsb' 12 8, mar := w.extractLsb' 0 12, phase := .executeRight }

/-- The state after ADVANCE (R151). -/
def afterAdvance (u : State) : State :=
  { u with pc := u.pc + 1#12, cyc := u.cyc + 1, phase := .fetch }

/-- The instructions with an operand read, and its address (10_state.md R36, column `mem`); DISC has three. -/
def operandOf : Instr → Option Addr
  | .loadNeg x => some x
  | .add x => some x
  | .sub x => some x
  | .loadMqMem x => some x
  | .mul x => some x
  | .div x => some x
  | .sqrt x => some x
  | .halt => none
  | .loadMq => none
  | .jumpPlus _ => none
  | .disc _ _ _ => none
  | .stor _ => none

/-- The instructions R36 gives a `w` in column AC. -/
def writesAc : Instr → Bool
  | .loadNeg _ => true
  | .loadMq => true
  | .add _ => true
  | .sub _ => true
  | .mul _ => true
  | .div _ => true
  | .disc _ _ _ => true
  | .sqrt _ => true
  | .halt => false
  | .loadMqMem _ => false
  | .jumpPlus _ => false
  | .stor _ => false

/-- The instructions R36 gives a `w` in column MQ. -/
def writesMq : Instr → Bool
  | .loadMqMem _ => true
  | .mul _ => true
  | .div _ => true
  | .halt => false
  | .loadNeg _ => false
  | .add _ => false
  | .sub _ => false
  | .loadMq => false
  | .jumpPlus _ => false
  | .disc _ _ _ => false
  | .sqrt _ => false
  | .stor _ => false

/-- The instructions that read memory and write none: R36, column `mem`, `R` and `RRR`. -/
def readsMemory : Instr → Bool
  | .loadNeg _ => true
  | .loadMqMem _ => true
  | .add _ => true
  | .sub _ => true
  | .mul _ => true
  | .div _ => true
  | .disc _ _ _ => true
  | .sqrt _ => true
  | .halt => false
  | .loadMq => false
  | .jumpPlus _ => false
  | .stor _ => false

/-- Which faults the table of R210 lets an EXECUTE phase raise for which instruction, with the info it records. The
reads of DISC can fault at its three addresses, but not with AddressError, since R8 makes memory larger than 15. -/
def mayRaise : Instr → EngineFault → Prop
  | .halt, _ => False
  | .loadMq, _ => False
  | .jumpPlus _, _ => False
  | .stor x, f => f = .addressError x
  | .div x, f => f = .addressError x ∨ f = .uninitialisedRead x ∨ f = .cellKindError .operand x ∨
      f = .arithmeticError .divZero x
  | .sqrt x, f => f = .addressError x ∨ f = .uninitialisedRead x ∨ f = .cellKindError .operand x ∨
      f = .arithmeticError .sqrtNegative x
  | .disc i j k, f => ∃ d, (d = i ∨ d = j ∨ d = k) ∧
      (f = .uninitialisedRead (d.setWidth 12) ∨ f = .cellKindError .operand (d.setWidth 12))
  | .loadNeg x, f => f = .addressError x ∨ f = .uninitialisedRead x ∨ f = .cellKindError .operand x
  | .loadMqMem x, f => f = .addressError x ∨ f = .uninitialisedRead x ∨ f = .cellKindError .operand x
  | .add x, f => f = .addressError x ∨ f = .uninitialisedRead x ∨ f = .cellKindError .operand x
  | .sub x, f => f = .addressError x ∨ f = .uninitialisedRead x ∨ f = .cellKindError .operand x
  | .mul x, f => f = .addressError x ∨ f = .uninitialisedRead x ∨ f = .cellKindError .operand x

/-- AC, MQ and every numeric cell hold integers. -/
def AllIntegers (s : State) : Prop :=
  s.ac.den = 1 ∧ s.mq.den = 1 ∧ ∀ a v, s.mem.read a = .num v → v.den = 1

/-- Two states agree on everything but MAR, IR, IBR, MBR and the sequencing state. -/
def SameButBookkeeping (s t : State) : Prop :=
  s.pc = t.pc ∧ s.ac = t.ac ∧ s.mq = t.mq ∧ s.mem = t.mem ∧ s.status = t.status ∧ s.cyc = t.cyc ∧ s.cfg = t.cfg

/-- `ds` is a decimal numeral for `n`: one or more digits, read in base ten (35_encoder.md R112). -/
def IsDec (ds : List Char) (n : Nat) : Prop :=
  ds ≠ [] ∧ (∀ c ∈ ds, c.isDigit = true) ∧ Nat.ofDigits 10 (ds.reverse.map fun c => c.toNat - 48) = n

/-- A source instruction and a decoded instruction are the same one, with the same operands. -/
def SameInstr : SrcInstr → Instr → Prop
  | .halt, i => i = .halt
  | .loadMq, i => i = .loadMq
  | .jumpPlus n, i => ∃ x, i = .jumpPlus x ∧ x.toNat = n
  | .loadMqMem n, i => ∃ x, i = .loadMqMem x ∧ x.toNat = n
  | .loadNeg n, i => ∃ x, i = .loadNeg x ∧ x.toNat = n
  | .disc a b c, i => ∃ x y z, i = .disc x y z ∧ x.toNat = a ∧ y.toNat = b ∧ z.toNat = c
  | .mem .stor n, i => ∃ x, i = .stor x ∧ x.toNat = n
  | .mem .add n, i => ∃ x, i = .add x ∧ x.toNat = n
  | .mem .sub n, i => ∃ x, i = .sub x ∧ x.toNat = n
  | .mem .mul n, i => ∃ x, i = .mul x ∧ x.toNat = n
  | .mem .div n, i => ∃ x, i = .div x ∧ x.toNat = n
  | .mem .sqrt n, i => ∃ x, i = .sqrt x ∧ x.toNat = n

/-- The text of a `MEMOPS` mnemonic (35_encoder.md R113) and its opcode in a table (30_encoding.md R84). -/
def memOpText : MemOp → String
  | .stor => "STOR"
  | .add => "ADD"
  | .sub => "SUB"
  | .mul => "MUL"
  | .div => "DIV"
  | .sqrt => "SQRT"

/-- The opcode of a `MEMOPS` mnemonic. -/
def memOpOpcode (t : OpcodeTable) : MemOp → Opcode
  | .stor => t.stor
  | .add => t.add
  | .sub => t.sub
  | .mul => t.mul
  | .div => t.div
  | .sqrt => t.sqrt

/-- The text `OP M(ds)` (35_encoder.md R120). -/
def memOpLine (op : MemOp) (ds : List Char) : List Char := (memOpText op).toList ++ " M(".toList ++ ds ++ ")".toList

/-- The text `LOAD -M(ds)` (35_encoder.md R121). -/
def loadNegLine (ds : List Char) : List Char := ['L', 'O', 'A', 'D', ' ', '-', 'M', '('] ++ ds ++ [')']

/-- The text of a composite line: two instructions with a blank between (35_encoder.md R122). -/
def compositeLine (l r : List Char) : List Char := l ++ ' ' :: r

/-- The state `t` is the one R240 gives after Reset, of the instance `c`. -/
def IsResetState (c : Config) (t : State) : Prop :=
  t.pc = 0#12 ∧ t.ac = 0 ∧ t.mq = 0 ∧ t.mar = 0#12 ∧ t.ir = 0#8 ∧ t.ibr = 0#20 ∧ t.mbr = .word 0#40 ∧
  t.status = .idle ∧ t.cyc = 0 ∧ t.phase = .fetch ∧ t.cfg = c ∧ ∀ a, t.mem.read a = .uninit

end Sys2Proof.Machine

open Sys2Proof Sys2Proof.Machine

/-! ## The instructions -/

/-- R170: `AC <- -M[x]`; MAR, MBR and AC are all that is written; the three faults of the operand read come before
anything is written; the encoding is the opcode, then the 12 bits of x, for every table (the rule's default opcode is a
parameter's value, D1, log 2, and no part of the statement). -/
def Obligations.LoadNegNegatesTheOperand : Prop :=
  ∀ (s : State) (x : Addr),
    (∀ v, x.toNat < s.cfg.memSize → s.mem.read x.toNat = .num v →
      exec (.loadNeg x) s = .next { s with ac := -v, mar := x, mbr := .num v }) ∧
    OperandFaults (.loadNeg x) x s ∧
    ∀ t : OpcodeTable, t.WF → decodeSlot t (t.loadNeg ++ x) = .instr (.loadNeg x)

/-- R171: `MQ <- M[x]`, the faults and the encoding as in R170. -/
def Obligations.LoadMqReadsMemory : Prop :=
  ∀ (s : State) (x : Addr),
    (∀ v, x.toNat < s.cfg.memSize → s.mem.read x.toNat = .num v →
      exec (.loadMqMem x) s = .next { s with mq := v, mar := x, mbr := .num v }) ∧
    OperandFaults (.loadMqMem x) x s ∧
    ∀ t : OpcodeTable, t.WF → decodeSlot t (t.loadMqMem ++ x) = .instr (.loadMqMem x)

/-- R172: `AC <- MQ` and nothing else, for any address bits: a slot with LOAD MQ's opcode is LOAD MQ whatever its 12
address bits are (the spec's decision D14, log 15). -/
def Obligations.LoadMqCopiesMqToAc : Prop :=
  (∀ s : State, exec .loadMq s = .next { s with ac := s.mq }) ∧
  ∀ (t : OpcodeTable) (f : Addr), t.WF → decodeSlot t (mkSlot t.loadMq f) = .instr .loadMq

/-- R60, through its one user STOR, with STOR's frame: the cell at `x` becomes `N(AC)` whatever it held, MAR and MBR are written, every
other cell and register is unchanged; an address outside memory faults and nothing is written. -/
def Obligations.StorWritesOneCell : Prop :=
  ∀ (s : State) (x : Addr),
    (x.toNat < s.cfg.memSize → ∃ t, exec (.stor x) s = .next t ∧
      t = { s with mar := x, mbr := .num s.ac, mem := t.mem } ∧
      t.mem.read x.toNat = .num s.ac ∧
      ∀ a, a ≠ x.toNat → t.mem.read a = s.mem.read a) ∧
    (s.cfg.memSize ≤ x.toNat → exec (.stor x) s = .next (faultState s (.addressError x)))

/-- R180: `AC <- AC + M[x]`, exact at any size; the faults and the encoding as in R170. -/
def Obligations.AddAddsTheOperand : Prop :=
  ∀ (s : State) (x : Addr),
    (∀ v, x.toNat < s.cfg.memSize → s.mem.read x.toNat = .num v →
      exec (.add x) s = .next { s with ac := s.ac + v, mar := x, mbr := .num v }) ∧
    OperandFaults (.add x) x s ∧
    ∀ t : OpcodeTable, t.WF → decodeSlot t (t.add ++ x) = .instr (.add x)

/-- R181: `AC <- AC - M[x]`; the faults and the encoding as in R170. -/
def Obligations.SubSubtractsTheOperand : Prop :=
  ∀ (s : State) (x : Addr),
    (∀ v, x.toNat < s.cfg.memSize → s.mem.read x.toNat = .num v →
      exec (.sub x) s = .next { s with ac := s.ac - v, mar := x, mbr := .num v }) ∧
    OperandFaults (.sub x) x s ∧
    ∀ t : OpcodeTable, t.WF → decodeSlot t (t.sub ++ x) = .instr (.sub x)

/-- R182: `AC <- M[x]`, then `MQ <- AC·MQ` with the new AC; the old AC takes no part; the faults and the encoding as in
R170. -/
def Obligations.MulLoadsAcThenMultiplies : Prop :=
  ∀ (s : State) (x : Addr),
    (∀ v, x.toNat < s.cfg.memSize → s.mem.read x.toNat = .num v →
      exec (.mul x) s = .next { s with ac := v, mq := v * s.mq, mar := x, mbr := .num v }) ∧
    OperandFaults (.mul x) x s ∧
    ∀ t : OpcodeTable, t.WF → decodeSlot t (t.mul ++ x) = .instr (.mul x)

/-- R183: the exact quotient in MQ and the floored remainder in AC, both from the old AC; a zero divisor faults with AC
and MQ unchanged. That the remainder is floored is the spec's decision D5 (log 6). -/
def Obligations.DivQuotientAndFlooredRemainder : Prop :=
  ∀ (s : State) (x : Addr),
    (∀ v, x.toNat < s.cfg.memSize → s.mem.read x.toNat = .num v → v ≠ 0 →
      exec (.div x) s =
        .next { s with mq := s.ac / v, ac := s.ac - v * (⌊s.ac / v⌋ : Number), mar := x, mbr := .num v }) ∧
    (x.toNat < s.cfg.memSize → s.mem.read x.toNat = .num 0 →
      exec (.div x) s = .next (faultState s (.arithmeticError .divZero x))) ∧
    OperandFaults (.div x) x s

/-- R184 (e), the laws of DIV's two results, in terms of what the instruction leaves: the quotient times the divisor is
the old AC, the remainder differs from the old AC by a whole multiple of the divisor, it is in `[0, v)` for a positive
divisor and in `(v, 0]` for a negative one (the spec's decisions D4, D5: logs 5, 6). -/
def Obligations.DivResultsObeyTheDivisionLaws : Prop :=
  ∀ (s t : State) (x : Addr) (v : Number),
    x.toNat < s.cfg.memSize → s.mem.read x.toNat = .num v → v ≠ 0 → exec (.div x) s = .next t →
      t.mq * v = s.ac ∧ (∃ n : Int, s.ac = v * n + t.ac) ∧
      (0 < v → 0 ≤ t.ac ∧ t.ac < v) ∧ (v < 0 → v < t.ac ∧ t.ac ≤ 0)

/-- R190: `AC <- M[j]² - 4·M[i]·M[k]`, MAR and MBR left at the third cell; the reads are tried in the order i, j, k and
the first that faults is the one reported (the spec's decision D26, log 23). -/
def Obligations.DiscComputesTheDiscriminant : Prop :=
  ∀ (s : State) (i j k : DiscField), 16 ≤ s.cfg.memSize →
    (∀ a b c, s.mem.read i.toNat = .num a → s.mem.read j.toNat = .num b → s.mem.read k.toNat = .num c →
      exec (.disc i j k) s =
        .next { s with ac := b * b - 4 * a * c, mar := k.setWidth 12, mbr := .num c }) ∧
    (∀ f, cellFault (s.mem.read i.toNat) (i.setWidth 12) = some f →
      exec (.disc i j k) s = .next (faultState s f)) ∧
    (∀ a f, s.mem.read i.toNat = .num a → cellFault (s.mem.read j.toNat) (j.setWidth 12) = some f →
      exec (.disc i j k) s = .next (faultState s f)) ∧
    (∀ a b f, s.mem.read i.toNat = .num a → s.mem.read j.toNat = .num b →
      cellFault (s.mem.read k.toNat) (k.setWidth 12) = some f →
      exec (.disc i j k) s = .next (faultState s f))

/-- R191 and R11: SQRT of a non-negative operand completes, with the exact non-negative root where the operand is the
square of a rational and otherwise with some non-negative number inside the bound SQRT_EPS; a negative operand faults
with AC unchanged. The result on a non-square is a free value inside the bound (the spec's decision D6, log 7). -/
def Obligations.SqrtIsExactOrWithinTheBound : Prop :=
  ∀ (s : State) (x : Addr), 0 < s.cfg.sqrtEps →
    (∀ v, x.toNat < s.cfg.memSize → s.mem.read x.toNat = .num v → 0 ≤ v → ∃ r,
      exec (.sqrt x) s = .next { s with ac := r, mar := x, mbr := .num v } ∧
      0 ≤ r ∧ |r * r - v| ≤ s.cfg.sqrtEps * v ∧ ∀ q, 0 ≤ q → q * q = v → r = q) ∧
    (∀ v, x.toNat < s.cfg.memSize → s.mem.read x.toNat = .num v → v < 0 →
      exec (.sqrt x) s = .next (faultState s (.arithmeticError .sqrtNegative x))) ∧
    OperandFaults (.sqrt x) x s

/-- R191 (d): two executions of SQRT on the same operand, anywhere and at any time in one instance, give the same AC. -/
def Obligations.SqrtDependsOnTheOperandOnly : Prop :=
  ∀ (s s' t t' : State) (x x' : Addr) (v : Number), s.cfg = s'.cfg → s.status = .running → s'.status = .running →
    s.mem.read x.toNat = .num v → s'.mem.read x'.toNat = .num v →
    exec (.sqrt x) s = .next t → exec (.sqrt x') s' = .next t' →
    t.status = .running → t'.status = .running → t.ac = t'.ac

/-- R200: the jump is taken exactly when `AC ≥ 0`, zero included; PC is all that changes; x is not checked against
MEM_SIZE (the spec's decisions D3, D15: logs 4, 16). -/
def Obligations.JumpPlusTestsTheSignOfAc : Prop :=
  ∀ (s : State) (x : Addr),
    (0 ≤ s.ac → exec (.jumpPlus x) s = .next { s with pc := x - 1#12 }) ∧
    (s.ac < 0 → exec (.jumpPlus x) s = .next s)

/-- R201 (b) and R88: HALT in a slot changes nothing, and a slot whose opcode is all zero is HALT whatever its address
bits are (the spec's decision D14, log 15). -/
def Obligations.HaltInASlotDoesNothing : Prop :=
  (∀ s : State, exec .halt s = .next s) ∧
  ∀ (t : OpcodeTable) (f : Addr), t.WF → decodeSlot t (mkSlot 0#8 f) = .instr .halt

/-! ## Frames -/

/-- R36: LOAD MQ, JUMP+ and HALT touch no memory, no MAR, no MBR and raise nothing: the register each names is all it
may change. -/
def Obligations.RegisterOnlyInstructionsFrame : Prop :=
  ∀ (i : Instr) (s t : State), (i = .loadMq ∨ i = .halt ∨ ∃ x, i = .jumpPlus x) → exec i s = .next t →
    (∀ a, t.mem.read a = s.mem.read a) ∧ t.mq = s.mq ∧ t.mar = s.mar ∧ t.mbr = s.mbr ∧ t.ir = s.ir ∧
    t.ibr = s.ibr ∧ t.status = s.status ∧ t.cyc = s.cyc ∧ t.phase = s.phase ∧ t.cfg = s.cfg ∧
    (i ≠ .loadMq → t.ac = s.ac) ∧ ((∀ x, i ≠ .jumpPlus x) → t.pc = s.pc)

/-- R36: LOAD -M(X), LOAD MQ,M(X), ADD, SUB, MUL, DIV, DISC and SQRT store nothing: every cell reads as before; PC, IR,
IBR, CYC and the parameters are unchanged; AC and MQ are unchanged but where the table of R36 gives the instruction a
`w`, and both are unchanged, with MAR and MBR, where the instruction faulted. -/
def Obligations.MemoryReadersFrame : Prop :=
  ∀ (i : Instr) (s t : State), readsMemory i = true → exec i s = .next t →
    (∀ a, t.mem.read a = s.mem.read a) ∧ t.pc = s.pc ∧ t.ir = s.ir ∧ t.ibr = s.ibr ∧ t.cyc = s.cyc ∧
    t.cfg = s.cfg ∧ (writesAc i = false → t.ac = s.ac) ∧ (writesMq i = false → t.mq = s.mq) ∧
    (t.status ≠ s.status → t.ac = s.ac ∧ t.mq = s.mq ∧ t.mar = s.mar ∧ t.mbr = s.mbr)

/-! ## Faults -/

/-- R218: an instruction that raises a fault writes nothing but STATUS (and the sequencing state); one that does not,
leaves STATUS alone. -/
def Obligations.AFaultingInstructionWritesOnlyStatus : Prop :=
  ∀ (i : Instr) (s t : State), exec i s = .next t →
    t.status = s.status ∨ ∃ f, t = faultState s f

/-- R210, the table: which instruction can raise which fault, and with which info. -/
def Obligations.EachInstructionRaisesOnlyItsFaults : Prop :=
  ∀ (i : Instr) (s t : State) (f : EngineFault) (h : Half), s.cfg.WF → s.status = .running →
    exec i s = .next t → t.status = .faulted f h → mayRaise i f ∧ h = s.phase.half

/-- No instruction stops the model: in every state every instruction answers a next state, and so does a step where
STATUS is RUNNING (R140, R218). A fault of the engine counts as a next state, with STATUS = FAULTED (log 13); HALT in a
slot and a jump not taken answer the state as it was. -/
def Obligations.EveryInstructionAnswersANextState : Prop :=
  (∀ (i : Instr) (s : State), ∃ t, exec i s = .next t) ∧
  ∀ s : State, s.status = .running → ∃ t, step s = .next t

/-! ## The word cycle -/

/-- R147, R149, R151: FETCH leaves the word in MBR, DECODE-LEFT and DECODE-RIGHT set IR, MAR and IBR from its bits,
the two decoded instructions are executed, the left one first, and ADVANCE adds one to PC and to CYC. A fault in a half
ends the word cycle there (R148, R150). -/
def Obligations.StepRunsTheDecodedPair : Prop :=
  ∀ (s : State) (w : Word) (i j : Instr), ReadyToExecute s w →
    decodeSlot s.cfg.opc (w.extractLsb' 20 20) = .instr i →
    decodeSlot s.cfg.opc (w.extractLsb' 0 20) = .instr j →
    ∃ t, exec i (afterDecodeLeft s w) = .next t ∧
      (t.status ≠ .running → step s = .next t) ∧
      (t.status = .running → ∃ u, exec j (afterDecodeRight t w) = .next u ∧
        (u.status ≠ .running → step s = .next u) ∧
        (u.status = .running → step s = .next (afterAdvance u)))

/-- R152, R215: an opcode outside the table faults when its half is reached, with the opcode as info; a left half
before it has taken effect (the spec's decision D11, log 12). -/
def Obligations.IllegalOpcodeFaultsInItsHalf : Prop :=
  ∀ (s : State) (w : Word) (o : Opcode), ReadyToExecute s w →
    (decodeSlot s.cfg.opc (w.extractLsb' 20 20) = .illegal o →
      step s = .next (faultStateIn (afterDecodeLeft s w) .left (.illegalInstruction o))) ∧
    (∀ i t, decodeSlot s.cfg.opc (w.extractLsb' 20 20) = .instr i →
      decodeSlot s.cfg.opc (w.extractLsb' 0 20) = .illegal o →
      exec i (afterDecodeLeft s w) = .next t → t.status = .running →
      step s = .next (faultStateIn (afterDecodeRight t w) .right (.illegalInstruction o)))

/-- R142: a sentinel PC halts before anything is fetched, whatever the cell there holds, END_SENTINEL first; nothing
but STATUS changes (the order and the two addresses are the spec's decisions D10, D28: logs 11, 21). -/
def Obligations.SentinelsHaltBeforeTheFetch : Prop :=
  ∀ s : State, s.status = .running →
    (s.pc = s.cfg.haltPc → step s = .next { s with status := .halted .endSentinel, phase := .fetch }) ∧
    (s.pc ≠ s.cfg.haltPc → s.pc = s.cfg.noRootsPc →
      step s = .next { s with status := .halted .noRealRoots, phase := .fetch })

/-- R144: the fetch sets MAR to PC and MBR to the word; its three faults, in their order, change nothing but STATUS. -/
def Obligations.FetchReadsTheWordAtPc : Prop :=
  ∀ s : State, s.status = .running → s.pc ≠ s.cfg.haltPc → s.pc ≠ s.cfg.noRootsPc →
    (s.cfg.memSize ≤ s.pc.toNat → step s = .next (faultStateIn s .fetch (.addressError s.pc))) ∧
    (s.pc.toNat < s.cfg.memSize → s.mem.read s.pc.toNat = .uninit →
      step s = .next (faultStateIn s .fetch (.uninitialisedRead s.pc))) ∧
    (∀ v, s.pc.toNat < s.cfg.memSize → s.mem.read s.pc.toNat = .num v →
      step s = .next (faultStateIn s .fetch (.cellKindError .fetch s.pc))) ∧
    (∀ w, s.pc.toNat < s.cfg.memSize → s.mem.read s.pc.toNat = .word w →
      s.memReadWord s.pc = .ok (w, { s with mar := s.pc, mbr := .word w }))

/-- R145: the HALT word stops the engine at FETCH: MAR and MBR show the fetch, nothing else but STATUS changes. -/
def Obligations.HaltWordStopsTheEngine : Prop :=
  ∀ s : State, s.status = .running → s.pc ≠ s.cfg.haltPc → s.pc ≠ s.cfg.noRootsPc →
    s.pc.toNat < s.cfg.memSize → s.mem.read s.pc.toNat = .word 0#40 →
    step s = .next { s with mar := s.pc, mbr := .word 0#40, status := .halted .haltWord, phase := .fetch }

/-- R146, R213: at the ceiling a word that is not the HALT word is fetched and then NonTermination is raised, with MAR
and MBR as the fetch left them (the value of the ceiling is the spec's decision D13, log 14). -/
def Obligations.CycleCeilingFaults : Prop :=
  ∀ (s : State) (w : Word), s.status = .running → s.pc ≠ s.cfg.haltPc → s.pc ≠ s.cfg.noRootsPc →
    s.pc.toNat < s.cfg.memSize → s.mem.read s.pc.toNat = .word w → w ≠ 0#40 → s.cfg.maxCycles ≤ s.cyc →
    step s = .next (faultStateIn { s with mar := s.pc, mbr := .word w } .fetch (.nonTermination s.pc))

/-- R30, R141, U17: in every other status the engine has no step. The model stops with the fault `noStep`, which is
the model's own name for it (log 28). -/
def Obligations.OnlyRunningHasAStep : Prop :=
  ∀ s : State, s.status ≠ .running → step s = .fault (.noStep s.status)

/-- R89: the HALT word is the word of 40 zeros, tested on the whole fetched word, and only that word. A word with one
all-zero slot executes its other slot alone; a word with two zero opcodes and some other bit executes nothing. -/
def Obligations.ZeroSlotsAreNoOperations : Prop :=
  (∀ s : State, s.status = .running → s.pc ≠ s.cfg.haltPc → s.pc ≠ s.cfg.noRootsPc →
    s.pc.toNat < s.cfg.memSize → s.mem.read s.pc.toNat = .word 0#40 →
    ∃ t, step s = .next t ∧ t.status = .halted .haltWord) ∧
  ∀ (s : State) (w : Word), s.cfg.opc.WF → ReadyToExecute s w →
    (∀ t, step s = .next t → t.status ≠ .halted .haltWord) ∧
    (w.extractLsb' 32 8 = 0#8 → w.extractLsb' 12 8 = 0#8 →
      step s = .next (afterAdvance (afterDecodeRight (afterDecodeLeft s w) w))) ∧
    (∀ i t, w.extractLsb' 0 20 = 0#20 → decodeSlot s.cfg.opc (w.extractLsb' 20 20) = .instr i →
      exec i (afterDecodeLeft s w) = .next t → t.status = .running →
      step s = .next (afterAdvance (afterDecodeRight t w))) ∧
    (∀ j u, w.extractLsb' 20 20 = 0#20 → decodeSlot s.cfg.opc (w.extractLsb' 0 20) = .instr j →
      exec j (afterDecodeRight (afterDecodeLeft s w) w) = .next u → u.status = .running →
      step s = .next (afterAdvance u))

/-- R200 and R151 together, the source's own example: a word with JUMP+ M(x) on the left and zeros on the right goes to
word x where AC is not negative, x = 0 included, and to the next word where it is (D3: log 4). -/
def Obligations.JumpPlusLandsOnItsTarget : Prop :=
  ∀ (s : State) (w : Word) (x : Addr), s.cfg.opc.WF → ReadyToExecute s w →
    w = s.cfg.opc.jumpPlus ++ x ++ 0#20 →
    ∃ t, step s = .next t ∧ t.status = .running ∧ t.ac = s.ac ∧ t.mq = s.mq ∧ t.mem = s.mem ∧
      (0 ≤ s.ac → t.pc = x) ∧ (s.ac < 0 → t.pc = s.pc + 1#12)

/-- R257, R153: the jump shadow. A taken JUMP+ on the left does not cancel the ADD on the right, which runs before
control arrives at x; the jump was decided on the old AC. -/
def Obligations.TakenJumpDoesNotCancelTheRightSlot : Prop :=
  ∀ (s : State) (w : Word) (x y : Addr) (v : Number), s.cfg.opc.WF → ReadyToExecute s w →
    w = s.cfg.opc.jumpPlus ++ x ++ s.cfg.opc.add ++ y → 0 ≤ s.ac →
    y.toNat < s.cfg.memSize → s.mem.read y.toNat = .num v →
    ∃ t, step s = .next t ∧ t.status = .running ∧ t.ac = s.ac + v ∧ t.pc = x

/-- R256: the right slot is latched. A STOR on the left into the word being executed overwrites that word with AC, the
ADD on the right still executes as it was fetched, and the next fetch of that address faults. -/
def Obligations.RightSlotIsLatched : Prop :=
  ∀ (s : State) (w : Word) (y : Addr) (v : Number), s.cfg.opc.WF → ReadyToExecute s w →
    w = s.cfg.opc.stor ++ s.pc ++ s.cfg.opc.add ++ y →
    y ≠ s.pc → y.toNat < s.cfg.memSize → s.mem.read y.toNat = .num v →
    ∃ t, step s = .next t ∧ t.status = .running ∧ t.ac = s.ac + v ∧ t.mem.read s.pc.toNat = .num s.ac ∧
      step { t with pc := s.pc } =
        .next (faultStateIn { t with pc := s.pc } .fetch (.cellKindError .fetch s.pc))

/-- R140, R35: taking each phase as a transition gives the same states at every word boundary and at every fault as
taking the whole word cycle. -/
def Obligations.PhaseStepsMakeTheWordCycle : Prop :=
  ∀ s : State, s.phase = .fetch → runPhases 6 s = step s

/-! ## Whole-machine rules -/

/-- Memory stays canonical and inside the address space, CYC at most MAX_CYCLES, the engine between word cycles: every
step keeps it, from every state that has it (R31, R35, R50; logs 8, 27). -/
def Obligations.StepKeepsTheInvariant : Prop :=
  ∀ s t : State, s.Inv → step s = .next t → t.Inv

/-- The invariant holds after reset, of every instance. -/
def Obligations.ResetMeetsTheInvariant : Prop :=
  State.reset.Inv ∧ ∀ c : Config, (State.resetWith c).Inv

/-- Every operation of the host keeps the invariant (R245 to R249). -/
def Obligations.HostOperationsKeepTheInvariant : Prop :=
  ∀ s t : State, s.Inv →
    s.hostReset.Inv ∧
    (∀ a c, s.loadCell a c = .next t → t.Inv) ∧
    (∀ b ws, s.loadProgram b ws = .next t → t.Inv) ∧
    (∀ p, s.setPc p = .next t → t.Inv) ∧
    (s.start = .next t → t.Inv)

/-- R33: nothing writes the parameters. -/
def Obligations.StepNeverWritesTheParameters : Prop :=
  ∀ s t : State, step s = .next t → t.cfg = s.cfg

/-- R55, R68: a program cannot construct or modify an instruction: a cell that holds a word after a step held that same
word before it, and no cell becomes uninitialised (the spec's decision D7, log 8). -/
def Obligations.ProgramsCannotMakeInstructions : Prop :=
  ∀ s t : State, step s = .next t →
    (∀ a w, t.mem.read a = .word w → s.mem.read a = .word w) ∧
    (∀ a, t.mem.read a = .uninit → s.mem.read a = .uninit)

/-- R173 (d): a cell changes in a step only where a slot of the word being executed is a STOR to it, and then it holds
the AC of that moment, a number. -/
def Obligations.OnlyStorChangesMemory : Prop :=
  ∀ (s t : State) (a : Nat), step s = .next t → t.mem.read a ≠ s.mem.read a →
    ∃ w x, s.mem.read s.pc.toNat = .word w ∧ x.toNat = a ∧
      (decodeSlot s.cfg.opc (w.extractLsb' 20 20) = .instr (.stor x) ∨
       decodeSlot s.cfg.opc (w.extractLsb' 0 20) = .instr (.stor x)) ∧
      ∃ v, t.mem.read a = .num v

/-- R202: in a word cycle that completes, PC moves to the next word or to the target of a JUMP+ in one of the two
slots, and nowhere else. -/
def Obligations.PcMovesByAdvanceOrJumpOnly : Prop :=
  ∀ s t : State, step s = .next t → t.status = .running →
    t.pc = s.pc + 1#12 ∨
    ∃ w x, s.mem.read s.pc.toNat = .word w ∧ t.pc = x ∧
      (decodeSlot s.cfg.opc (w.extractLsb' 20 20) = .instr (.jumpPlus x) ∨
       decodeSlot s.cfg.opc (w.extractLsb' 0 20) = .instr (.jumpPlus x))

/-- R31, R151, R218: CYC counts completed word cycles: one more where the engine is still running after the step, the
same where the step ended in a halt or a fault; and a word cycle completes only below MAX_CYCLES. -/
def Obligations.CycCountsCompletedWordCycles : Prop :=
  ∀ s t : State, step s = .next t →
    (t.status = .running → t.cyc = s.cyc + 1 ∧ s.cyc < s.cfg.maxCycles) ∧ (t.status ≠ .running → t.cyc = s.cyc)

/-- R154: with a finite MAX_CYCLES every run ends, after at most MAX_CYCLES + 1 steps. -/
def Obligations.EveryRunEnds : Prop :=
  ∀ s : State, s.status = .running →
    ∃ t, runWords (s.cfg.maxCycles - s.cyc + 1) s = .next t ∧ t.Stopped

/-- R22, R26, R29: no instruction's result depends on MAR, IR, IBR or MBR, nor on the sequencing state: two running
states that agree on everything else step to states that agree on everything else. -/
def Obligations.ResultsIgnoreTheBookkeepingRegisters : Prop :=
  ∀ s s' : State, SameButBookkeeping s s' → s.status = .running →
    ∃ t t', step s = .next t ∧ step s' = .next t' ∧ SameButBookkeeping t t'

/-- R184 (c): where every number a program can read is an integer and it executes neither DIV nor SQRT, AC and MQ and
the cells it writes hold integers. -/
def Obligations.IntegersStayIntegers : Prop :=
  ∀ (i : Instr) (s t : State), (∀ x, i ≠ .div x) → (∀ x, i ≠ .sqrt x) → AllIntegers s → exec i s = .next t →
    AllIntegers t

/-- Equal memories are equal data: two memories in canonical form that read the same everywhere are the same list
(the model's own representation, log 8). -/
def Obligations.CanonicalMemoriesAreEqualData : Prop :=
  ∀ m m' : Memory, m.wf = true → m'.wf = true → (∀ a, m.read a = m'.read a) → m = m'

/-! ## Encoding -/

/-- R83, R86: for every well-formed opcode table, decoding the encoded slot of any instruction gives it back, with
every operand at every value its field admits. -/
def Obligations.DecodeGivesBackTheEncodedInstruction : Prop :=
  ∀ (t : OpcodeTable) (i : Instr), t.WF → decodeSlot t (encodeSlot t i) = .instr i

/-- The other direction: a slot that decodes to an instruction is that instruction's encoding, but for the 12 address
bits of LOAD MQ and HALT, which decoding ignores (R88). -/
def Obligations.EncodeGivesBackTheDecodedSlot : Prop :=
  ∀ (t : OpcodeTable) (b : Slot) (i : Instr), decodeSlot t b = .instr i →
    i.opcode t = b.extractLsb' 12 8 ∧ ((i ≠ .loadMq ∧ i ≠ .halt) → encodeSlot t i = b)

/-- R86: decoding depends on the opcode field alone; each opcode of the table selects its instruction and the format of
the 12 address bits, and every other opcode is ILLEGAL. -/
def Obligations.DecodeFollowsTheOpcodeField : Prop :=
  ∀ (t : OpcodeTable) (b : Slot), t.WF →
    (b.extractLsb' 12 8 = t.disc →
      decodeSlot t b = .instr (.disc (b.extractLsb' 8 4) (b.extractLsb' 4 4) (b.extractLsb' 0 4))) ∧
    (b.extractLsb' 12 8 = t.loadNeg → decodeSlot t b = .instr (.loadNeg (b.extractLsb' 0 12))) ∧
    (b.extractLsb' 12 8 = t.add → decodeSlot t b = .instr (.add (b.extractLsb' 0 12))) ∧
    (b.extractLsb' 12 8 = t.sub → decodeSlot t b = .instr (.sub (b.extractLsb' 0 12))) ∧
    (b.extractLsb' 12 8 = t.loadMqMem → decodeSlot t b = .instr (.loadMqMem (b.extractLsb' 0 12))) ∧
    (b.extractLsb' 12 8 = t.mul → decodeSlot t b = .instr (.mul (b.extractLsb' 0 12))) ∧
    (b.extractLsb' 12 8 = t.div → decodeSlot t b = .instr (.div (b.extractLsb' 0 12))) ∧
    (b.extractLsb' 12 8 = t.jumpPlus → decodeSlot t b = .instr (.jumpPlus (b.extractLsb' 0 12))) ∧
    (b.extractLsb' 12 8 = t.sqrt → decodeSlot t b = .instr (.sqrt (b.extractLsb' 0 12))) ∧
    (b.extractLsb' 12 8 = t.stor → decodeSlot t b = .instr (.stor (b.extractLsb' 0 12))) ∧
    (b.extractLsb' 12 8 = t.loadMq → decodeSlot t b = .instr .loadMq) ∧
    (b.extractLsb' 12 8 = t.halt → decodeSlot t b = .instr .halt) ∧
    (b.extractLsb' 12 8 ∉ t.patterns → decodeSlot t b = .illegal (b.extractLsb' 12 8))

/-- R87: 244 opcode values are outside any well-formed table, and a slot decodes to ILLEGAL exactly with one of them
(the spec's decision D11, log 12). -/
def Obligations.TheOther244OpcodesAreIllegal : Prop :=
  ∀ t : OpcodeTable, t.WF →
    ((List.finRange 256).filter fun o => decide (BitVec.ofFin o ∉ t.patterns)).length = 244 ∧
    ∀ (b : Slot) (o : Opcode), decodeSlot t b = .illegal o ↔ o = b.extractLsb' 12 8 ∧ o ∉ t.patterns

/-- A few slots written out from 95_test_vectors.md V-D decode, with the default table, to what it says. -/
def Obligations.SpecSlotsDecode : Prop :=
  decodeSlot OpcodeTable.default 0x16FA3#20 = .instr (.disc 15#4 10#4 3#4) ∧
  decodeSlot OpcodeTable.default 0x0F1F4#20 = .instr (.jumpPlus 500#12) ∧
  decodeSlot OpcodeTable.default 0x0A123#20 = .instr .loadMq ∧
  decodeSlot OpcodeTable.default 0x00FFF#20 = .instr .halt ∧
  decodeSlot OpcodeTable.default 0x01005#20 = .illegal 0b00000001#8 ∧
  decodeSlot OpcodeTable.default 0x21FFF#20 = .instr (.stor 4095#12)

/-- R81: the four fields of a word, as its bits and as numbers. -/
def Obligations.WordFieldsAreTheSpecsBits : Prop :=
  ∀ w : Word,
    opcodeField (leftSlot w) = w.extractLsb' 32 8 ∧ addrField (leftSlot w) = w.extractLsb' 20 12 ∧
    opcodeField (rightSlot w) = w.extractLsb' 12 8 ∧ addrField (rightSlot w) = w.extractLsb' 0 12 ∧
    w.toNat = (opcodeField (leftSlot w)).toNat * 2 ^ 32 + (addrField (leftSlot w)).toNat * 2 ^ 20 +
      (opcodeField (rightSlot w)).toNat * 2 ^ 12 + (addrField (rightSlot w)).toNat

/-! ## The Encoder -/

/-- R115, R116, R117: the words of the lines `JUMP+ M(n,0:19)`, `DISC M(a),M(b),M(c)` and `LOAD MQ,M(n)`, for every
decimal numeral in range; a suffix other than `,0:19)` has no signature. -/
def Obligations.JumpDiscAndLoadMqLinesEncode : Prop :=
  ∀ (t : OpcodeTable),
    (∀ ds n, IsDec ds n → n ≤ 4095 →
      encodeLine t ("JUMP+ M(".toList ++ ds ++ ",0:19)".toList) =
        .ok (t.jumpPlus ++ BitVec.ofNat 12 n ++ 0#20)) ∧
    (∀ ds n rest, IsDec ds n → (∀ c ∈ rest, c ≠ ' ' ∧ c ≠ '\t') →
      (∀ c, rest.head? = some c → c.isDigit = false) → rest ≠ ",0:19)".toList →
      encodeLine t ("JUMP+ M(".toList ++ ds ++ rest) = .error .unknownSignature) ∧
    (∀ da db dc a b c, IsDec da a → IsDec db b → IsDec dc c → a ≤ 15 → b ≤ 15 → c ≤ 15 →
      encodeLine t ("DISC M(".toList ++ da ++ "),M(".toList ++ db ++ "),M(".toList ++ dc ++ ")".toList) =
        .ok (t.disc ++ BitVec.ofNat 4 a ++ BitVec.ofNat 4 b ++ BitVec.ofNat 4 c ++ 0#20)) ∧
    (∀ ds n, IsDec ds n → n ≤ 4095 →
      encodeLine t ("LOAD MQ,M(".toList ++ ds ++ ")".toList) =
        .ok (t.loadMqMem ++ BitVec.ofNat 12 n ++ 0#20))

/-- R114, R119 to R122: the words of `HALT`, `OP M(n)`, `LOAD -M(n)`, `LOAD MQ` and of the three composite forms, the
left instruction in the left slot (the spec's decisions D16, D17, D18: log 17). -/
def Obligations.MemopAndCompositeLinesEncode : Prop :=
  ∀ (t : OpcodeTable),
    (t.WF → encodeLine t "HALT".toList = .ok 0#40) ∧
    encodeLine t "LOAD MQ".toList = .ok (t.loadMq ++ 0#32) ∧
    (∀ ds n, IsDec ds n → n ≤ 4095 →
      encodeLine t (loadNegLine ds) = .ok (t.loadNeg ++ BitVec.ofNat 12 n ++ 0#20) ∧
      encodeLine t (compositeLine (memOpLine .mul ds) "LOAD MQ".toList) =
        .ok (t.mul ++ BitVec.ofNat 12 n ++ t.loadMq ++ 0#12) ∧
      (∀ op, encodeLine t (memOpLine op ds) = .ok (memOpOpcode t op ++ BitVec.ofNat 12 n ++ 0#20)) ∧
      ∀ op es m, IsDec es m → m ≤ 4095 →
        encodeLine t (compositeLine (loadNegLine ds) (memOpLine op es)) =
          .ok (t.loadNeg ++ BitVec.ofNat 12 n ++ memOpOpcode t op ++ BitVec.ofNat 12 m) ∧
        ∀ op', encodeLine t (compositeLine (memOpLine op' ds) (memOpLine op es)) =
          .ok (memOpOpcode t op' ++ BitVec.ofNat 12 n ++ memOpOpcode t op ++ BitVec.ofNat 12 m))

/-- R123: an operand too wide for its field is `operand_range`, never truncated, in every form of line that has an
operand, and in either half of a composite line (the spec's decision D19, log 18). -/
def Obligations.TooWideAnOperandIsRefused : Prop :=
  ∀ (t : OpcodeTable),
    (∀ ds n, IsDec ds n → 4095 < n →
      encodeLine t ("JUMP+ M(".toList ++ ds ++ ",0:19)".toList) = .error .operandRange ∧
      encodeLine t ("LOAD MQ,M(".toList ++ ds ++ ")".toList) = .error .operandRange ∧
      encodeLine t (loadNegLine ds) = .error .operandRange ∧
      encodeLine t (compositeLine (memOpLine .mul ds) "LOAD MQ".toList) = .error .operandRange ∧
      ∀ op, encodeLine t (memOpLine op ds) = .error .operandRange) ∧
    (∀ da db dc a b c, IsDec da a → IsDec db b → IsDec dc c → 15 < a ∨ 15 < b ∨ 15 < c →
      encodeLine t ("DISC M(".toList ++ da ++ "),M(".toList ++ db ++ "),M(".toList ++ dc ++ ")".toList) =
        .error .operandRange) ∧
    ∀ ds n es m op, IsDec ds n → IsDec es m → 4095 < n ∨ 4095 < m →
      encodeLine t (compositeLine (loadNegLine ds) (memOpLine op es)) = .error .operandRange ∧
      ∀ op', encodeLine t (compositeLine (memOpLine op' ds) (memOpLine op es)) = .error .operandRange

/-- R124: the word of every line the Encoder accepts decodes to the line's instruction or instructions, with their
operands, and to HALT on the right where the line has one instruction. -/
def Obligations.EncodedLinesDecodeToTheirInstructions : Prop :=
  ∀ (t : OpcodeTable) (line : List Char) (w : Word), t.WF → encodeLine t line = .ok w →
    ∃ l i j, classify (tokens line) = some l ∧
      decodeSlot t (leftSlot w) = .instr i ∧ decodeSlot t (rightSlot w) = .instr j ∧
      match l with
      | .single a => SameInstr a i ∧ j = .halt
      | .composite a b => SameInstr a i ∧ SameInstr b j

/-- R110, R111: EncodeProgram answers words exactly where there is an `EXIT` line and every line before the first one
encodes, and then one word for each of those lines, in their order (`EXIT` ends the input: D21, log 18). -/
def Obligations.EncodeProgramKeepsTheLineOrder : Prop :=
  ∀ (t : OpcodeTable) (lines : List (List Char)) (ws : List Word),
    encodeProgram t lines = .ok ws ↔
      ∃ pre e rest, lines = pre ++ e :: rest ∧ tokens e = ["EXIT".toList] ∧
        (∀ l ∈ pre, tokens l ≠ ["EXIT".toList]) ∧ List.Forall₂ (fun l w => encodeLine t l = .ok w) pre ws

/-- R111, R125: the first line that does not encode ends the encoding, with its cause and its 1-based number. -/
def Obligations.TheFirstEncodingErrorIsReported : Prop :=
  ∀ (t : OpcodeTable) (pre rest : List (List Char)) (line : List Char) (c : EncodingCause),
    (∀ l ∈ pre, tokens l ≠ ["EXIT".toList] ∧ ∃ w, encodeLine t l = .ok w) →
    tokens line ≠ ["EXIT".toList] → encodeLine t line = .error c →
    encodeProgram t (pre ++ line :: rest) = .error ⟨c, pre.length + 1⟩

/-- R112: a line is split at runs of blanks; blanks before, after and between tokens count for nothing; and nothing
else splits a line: a text that holds no blank is one token (the spec's decision D20, log 18). -/
def Obligations.BlanksOnlySeparateTokens : Prop :=
  (∀ bs cs es : List Char, (∀ c ∈ bs, c = ' ' ∨ c = '\t') → bs ≠ [] →
    tokens (bs ++ cs) = tokens cs ∧ tokens (cs ++ bs) = tokens cs ∧
    tokens (cs ++ bs ++ es) = tokens cs ++ tokens es) ∧
  ∀ cs : List Char, cs ≠ [] → (∀ c ∈ cs, c ≠ ' ' ∧ c ≠ '\t') → tokens cs = [cs]

/-! ## Reset and the host -/

/-- R240, R245: the host's Reset, in any status, gives the state of R240, of the same instance; the model's reset state
is that state of the default instance. The registers at zero are the source's; IR, IBR, MBR, memory, STATUS and CYC are
the spec's decisions D8, D23, D27, D31 (logs 9, 24), and that the host may reset in any status is D25 (log 22). -/
def Obligations.ResetState : Prop :=
  (∀ s : State, IsResetState s.cfg s.hostReset) ∧ IsResetState Config.default State.reset

/-- R246 to R249: what the host's operations do while the engine is not running (the spec's decision D25, log 22):
LoadCell writes one cell of memory and nothing else, SetPC writes PC, Start writes STATUS and CYC. -/
def Obligations.HostOperationsWriteWhatTheyName : Prop :=
  ∀ s : State, s.status ≠ .running →
    (∀ a c, a < s.cfg.memSize → c ≠ .uninit → ∃ t, s.loadCell a c = .next t ∧ t = { s with mem := t.mem } ∧
      t.mem.read a = c ∧ ∀ b, b ≠ a → t.mem.read b = s.mem.read b) ∧
    (∀ p, s.setPc p = .next { s with pc := p }) ∧
    s.start = .next { s with status := .running, cyc := 0, phase := .fetch }

/-- R247: LoadProgram puts word k of the program in the cell `base + k`, and nothing anywhere else; it is refused as a
whole where it does not fit (D25, log 22). -/
def Obligations.LoadProgramPlacesTheWords : Prop :=
  ∀ (s : State) (base : Nat) (ws : List Word), s.status ≠ .running →
    (base + ws.length ≤ s.cfg.memSize → ∃ t, s.loadProgram base ws = .next t ∧ t = { s with mem := t.mem } ∧
      (∀ (k : Nat) (hk : k < ws.length), t.mem.read (base + k) = .word (ws[k]'hk)) ∧
      ∀ a, (a < base ∨ base + ws.length ≤ a) → t.mem.read a = s.mem.read a) ∧
    (s.cfg.memSize < base + ws.length → s.loadProgram base ws = .refused .loadOutsideMemory)

/-- R246, U18: while the engine runs, LoadCell, LoadProgram, SetPC and Start are refused (D25, log 22). Reset is the one
operation of the host that is allowed in any status (R245); `ResetState` says what it does. -/
def Obligations.LoadsSetPcAndStartAreRefusedWhileRunning : Prop :=
  ∀ s : State, s.status = .running →
    (∀ a c, s.loadCell a c = .refused .hostWhileRunning) ∧
    (∀ b ws, s.loadProgram b ws = .refused .hostWhileRunning) ∧
    (∀ p, s.setPc p = .refused .hostWhileRunning) ∧
    s.start = .refused .hostWhileRunning
end

