-- ==== Sys2Proof/Laws/State.lean ====
section
/-! SUPPORT. One lemma per field per named update of the state, true by definition, so that no later proof unfolds a record update. -/

namespace Sys2Proof.Machine

variable (s : State)

/-! An access writes MAR and MBR (R58, R60). -/

@[simp] theorem State.noteAccess_pc (a : Addr) (c : Cell) : (s.noteAccess a c).pc = s.pc := rfl
@[simp] theorem State.noteAccess_ac (a : Addr) (c : Cell) : (s.noteAccess a c).ac = s.ac := rfl
@[simp] theorem State.noteAccess_mq (a : Addr) (c : Cell) : (s.noteAccess a c).mq = s.mq := rfl
@[simp] theorem State.noteAccess_mar (a : Addr) (c : Cell) : (s.noteAccess a c).mar = a := rfl
@[simp] theorem State.noteAccess_ir (a : Addr) (c : Cell) : (s.noteAccess a c).ir = s.ir := rfl
@[simp] theorem State.noteAccess_ibr (a : Addr) (c : Cell) : (s.noteAccess a c).ibr = s.ibr := rfl
@[simp] theorem State.noteAccess_mbr (a : Addr) (c : Cell) : (s.noteAccess a c).mbr = c := rfl
@[simp] theorem State.noteAccess_mem (a : Addr) (c : Cell) : (s.noteAccess a c).mem = s.mem := rfl
@[simp] theorem State.noteAccess_status (a : Addr) (c : Cell) : (s.noteAccess a c).status = s.status := rfl
@[simp] theorem State.noteAccess_cyc (a : Addr) (c : Cell) : (s.noteAccess a c).cyc = s.cyc := rfl
@[simp] theorem State.noteAccess_phase (a : Addr) (c : Cell) : (s.noteAccess a c).phase = s.phase := rfl
@[simp] theorem State.noteAccess_cfg (a : Addr) (c : Cell) : (s.noteAccess a c).cfg = s.cfg := rfl

/-! Taking a fault writes STATUS (R218). -/

@[simp] theorem State.raiseIn_pc (h : Half) (f : EngineFault) : (s.raiseIn h f).pc = s.pc := rfl
@[simp] theorem State.raiseIn_ac (h : Half) (f : EngineFault) : (s.raiseIn h f).ac = s.ac := rfl
@[simp] theorem State.raiseIn_mq (h : Half) (f : EngineFault) : (s.raiseIn h f).mq = s.mq := rfl
@[simp] theorem State.raiseIn_mar (h : Half) (f : EngineFault) : (s.raiseIn h f).mar = s.mar := rfl
@[simp] theorem State.raiseIn_ir (h : Half) (f : EngineFault) : (s.raiseIn h f).ir = s.ir := rfl
@[simp] theorem State.raiseIn_ibr (h : Half) (f : EngineFault) : (s.raiseIn h f).ibr = s.ibr := rfl
@[simp] theorem State.raiseIn_mbr (h : Half) (f : EngineFault) : (s.raiseIn h f).mbr = s.mbr := rfl
@[simp] theorem State.raiseIn_mem (h : Half) (f : EngineFault) : (s.raiseIn h f).mem = s.mem := rfl
@[simp] theorem State.raiseIn_status (h : Half) (f : EngineFault) : (s.raiseIn h f).status = .faulted f h := rfl
@[simp] theorem State.raiseIn_cyc (h : Half) (f : EngineFault) : (s.raiseIn h f).cyc = s.cyc := rfl
@[simp] theorem State.raiseIn_phase (h : Half) (f : EngineFault) : (s.raiseIn h f).phase = .fetch := rfl
@[simp] theorem State.raiseIn_cfg (h : Half) (f : EngineFault) : (s.raiseIn h f).cfg = s.cfg := rfl

/-! Taking a fault writes STATUS (R218). -/

@[simp] theorem State.raise_pc (f : EngineFault) : (s.raise f).pc = s.pc := rfl
@[simp] theorem State.raise_ac (f : EngineFault) : (s.raise f).ac = s.ac := rfl
@[simp] theorem State.raise_mq (f : EngineFault) : (s.raise f).mq = s.mq := rfl
@[simp] theorem State.raise_mar (f : EngineFault) : (s.raise f).mar = s.mar := rfl
@[simp] theorem State.raise_ir (f : EngineFault) : (s.raise f).ir = s.ir := rfl
@[simp] theorem State.raise_ibr (f : EngineFault) : (s.raise f).ibr = s.ibr := rfl
@[simp] theorem State.raise_mbr (f : EngineFault) : (s.raise f).mbr = s.mbr := rfl
@[simp] theorem State.raise_mem (f : EngineFault) : (s.raise f).mem = s.mem := rfl
@[simp] theorem State.raise_status (f : EngineFault) : (s.raise f).status = .faulted f s.phase.half := rfl
@[simp] theorem State.raise_cyc (f : EngineFault) : (s.raise f).cyc = s.cyc := rfl
@[simp] theorem State.raise_phase (f : EngineFault) : (s.raise f).phase = .fetch := rfl
@[simp] theorem State.raise_cfg (f : EngineFault) : (s.raise f).cfg = s.cfg := rfl

/-! A terminal condition writes STATUS (R142, R145). -/

@[simp] theorem State.halt_pc (r : HaltReason) : (s.halt r).pc = s.pc := rfl
@[simp] theorem State.halt_ac (r : HaltReason) : (s.halt r).ac = s.ac := rfl
@[simp] theorem State.halt_mq (r : HaltReason) : (s.halt r).mq = s.mq := rfl
@[simp] theorem State.halt_mar (r : HaltReason) : (s.halt r).mar = s.mar := rfl
@[simp] theorem State.halt_ir (r : HaltReason) : (s.halt r).ir = s.ir := rfl
@[simp] theorem State.halt_ibr (r : HaltReason) : (s.halt r).ibr = s.ibr := rfl
@[simp] theorem State.halt_mbr (r : HaltReason) : (s.halt r).mbr = s.mbr := rfl
@[simp] theorem State.halt_mem (r : HaltReason) : (s.halt r).mem = s.mem := rfl
@[simp] theorem State.halt_status (r : HaltReason) : (s.halt r).status = .halted r := rfl
@[simp] theorem State.halt_cyc (r : HaltReason) : (s.halt r).cyc = s.cyc := rfl
@[simp] theorem State.halt_phase (r : HaltReason) : (s.halt r).phase = .fetch := rfl
@[simp] theorem State.halt_cfg (r : HaltReason) : (s.halt r).cfg = s.cfg := rfl

/-! A taken jump writes PC (R200). -/

@[simp] theorem State.jumpTo_pc (x : Addr) : (s.jumpTo x).pc = x - 1#12 := rfl
@[simp] theorem State.jumpTo_ac (x : Addr) : (s.jumpTo x).ac = s.ac := rfl
@[simp] theorem State.jumpTo_mq (x : Addr) : (s.jumpTo x).mq = s.mq := rfl
@[simp] theorem State.jumpTo_mar (x : Addr) : (s.jumpTo x).mar = s.mar := rfl
@[simp] theorem State.jumpTo_ir (x : Addr) : (s.jumpTo x).ir = s.ir := rfl
@[simp] theorem State.jumpTo_ibr (x : Addr) : (s.jumpTo x).ibr = s.ibr := rfl
@[simp] theorem State.jumpTo_mbr (x : Addr) : (s.jumpTo x).mbr = s.mbr := rfl
@[simp] theorem State.jumpTo_mem (x : Addr) : (s.jumpTo x).mem = s.mem := rfl
@[simp] theorem State.jumpTo_status (x : Addr) : (s.jumpTo x).status = s.status := rfl
@[simp] theorem State.jumpTo_cyc (x : Addr) : (s.jumpTo x).cyc = s.cyc := rfl
@[simp] theorem State.jumpTo_phase (x : Addr) : (s.jumpTo x).phase = s.phase := rfl
@[simp] theorem State.jumpTo_cfg (x : Addr) : (s.jumpTo x).cfg = s.cfg := rfl

/-! DECODE-LEFT writes IR, MAR, IBR (R147). -/

@[simp] theorem State.decodeLeft_pc (w : Word) : (s.decodeLeft w).pc = s.pc := rfl
@[simp] theorem State.decodeLeft_ac (w : Word) : (s.decodeLeft w).ac = s.ac := rfl
@[simp] theorem State.decodeLeft_mq (w : Word) : (s.decodeLeft w).mq = s.mq := rfl
@[simp] theorem State.decodeLeft_mar (w : Word) : (s.decodeLeft w).mar = addrField (leftSlot w) := rfl
@[simp] theorem State.decodeLeft_ir (w : Word) : (s.decodeLeft w).ir = opcodeField (leftSlot w) := rfl
@[simp] theorem State.decodeLeft_ibr (w : Word) : (s.decodeLeft w).ibr = rightSlot w := rfl
@[simp] theorem State.decodeLeft_mbr (w : Word) : (s.decodeLeft w).mbr = s.mbr := rfl
@[simp] theorem State.decodeLeft_mem (w : Word) : (s.decodeLeft w).mem = s.mem := rfl
@[simp] theorem State.decodeLeft_status (w : Word) : (s.decodeLeft w).status = s.status := rfl
@[simp] theorem State.decodeLeft_cyc (w : Word) : (s.decodeLeft w).cyc = s.cyc := rfl
@[simp] theorem State.decodeLeft_phase (w : Word) : (s.decodeLeft w).phase = .executeLeft := rfl
@[simp] theorem State.decodeLeft_cfg (w : Word) : (s.decodeLeft w).cfg = s.cfg := rfl

/-! DECODE-RIGHT writes IR and MAR (R149). -/

@[simp] theorem State.decodeRight_pc : (s.decodeRight).pc = s.pc := rfl
@[simp] theorem State.decodeRight_ac : (s.decodeRight).ac = s.ac := rfl
@[simp] theorem State.decodeRight_mq : (s.decodeRight).mq = s.mq := rfl
@[simp] theorem State.decodeRight_mar : (s.decodeRight).mar = addrField s.ibr := rfl
@[simp] theorem State.decodeRight_ir : (s.decodeRight).ir = opcodeField s.ibr := rfl
@[simp] theorem State.decodeRight_ibr : (s.decodeRight).ibr = s.ibr := rfl
@[simp] theorem State.decodeRight_mbr : (s.decodeRight).mbr = s.mbr := rfl
@[simp] theorem State.decodeRight_mem : (s.decodeRight).mem = s.mem := rfl
@[simp] theorem State.decodeRight_status : (s.decodeRight).status = s.status := rfl
@[simp] theorem State.decodeRight_cyc : (s.decodeRight).cyc = s.cyc := rfl
@[simp] theorem State.decodeRight_phase : (s.decodeRight).phase = .executeRight := rfl
@[simp] theorem State.decodeRight_cfg : (s.decodeRight).cfg = s.cfg := rfl

/-! ADVANCE writes PC and CYC (R151). -/

@[simp] theorem State.advance_pc : (s.advance).pc = s.pc + 1#12 := rfl
@[simp] theorem State.advance_ac : (s.advance).ac = s.ac := rfl
@[simp] theorem State.advance_mq : (s.advance).mq = s.mq := rfl
@[simp] theorem State.advance_mar : (s.advance).mar = s.mar := rfl
@[simp] theorem State.advance_ir : (s.advance).ir = s.ir := rfl
@[simp] theorem State.advance_ibr : (s.advance).ibr = s.ibr := rfl
@[simp] theorem State.advance_mbr : (s.advance).mbr = s.mbr := rfl
@[simp] theorem State.advance_mem : (s.advance).mem = s.mem := rfl
@[simp] theorem State.advance_status : (s.advance).status = s.status := rfl
@[simp] theorem State.advance_cyc : (s.advance).cyc = s.cyc + 1 := rfl
@[simp] theorem State.advance_phase : (s.advance).phase = .fetch := rfl
@[simp] theorem State.advance_cfg : (s.advance).cfg = s.cfg := rfl

/-! Reset (R240). -/

@[simp] theorem State.resetWith_pc (c : Config) : (State.resetWith c).pc = 0#12 := rfl
@[simp] theorem State.resetWith_ac (c : Config) : (State.resetWith c).ac = 0 := rfl
@[simp] theorem State.resetWith_mq (c : Config) : (State.resetWith c).mq = 0 := rfl
@[simp] theorem State.resetWith_mar (c : Config) : (State.resetWith c).mar = 0#12 := rfl
@[simp] theorem State.resetWith_ir (c : Config) : (State.resetWith c).ir = 0#8 := rfl
@[simp] theorem State.resetWith_ibr (c : Config) : (State.resetWith c).ibr = 0#20 := rfl
@[simp] theorem State.resetWith_mbr (c : Config) : (State.resetWith c).mbr = .word 0#40 := rfl
@[simp] theorem State.resetWith_mem (c : Config) : (State.resetWith c).mem = [] := rfl
@[simp] theorem State.resetWith_status (c : Config) : (State.resetWith c).status = .idle := rfl
@[simp] theorem State.resetWith_cyc (c : Config) : (State.resetWith c).cyc = 0 := rfl
@[simp] theorem State.resetWith_phase (c : Config) : (State.resetWith c).phase = .fetch := rfl
@[simp] theorem State.resetWith_cfg (c : Config) : (State.resetWith c).cfg = c := rfl

end Sys2Proof.Machine
end

