-- ==== Sys2Proof/Laws/Memory.lean ====
section
/-! SUPPORT. Reading back what was written, and the canonical form of memory, which every memory operation keeps. -/

namespace Sys2Proof.Machine

@[simp] theorem Memory.read_nil (a : Nat) : Memory.read [] a = .uninit := rfl

theorem Memory.read_cons (b : Nat) (c : Cell) (m : Memory) (a : Nat) :
    Memory.read ((b, c) :: m) a = if a = b then c else Memory.read m a := rfl

@[simp] theorem Memory.wf_nil : Memory.wf [] = true := rfl

/-- The canonical form of a list with a head. -/
theorem Memory.wf_cons (a : Nat) (c : Cell) (m : Memory) :
    Memory.wf ((a, c) :: m) = true ↔ c ≠ .uninit ∧ (∀ p ∈ m, a < p.1) ∧ Memory.wf m = true := by
  simp [Memory.wf, and_assoc]

@[simp] theorem Memory.within_nil (n : Nat) : Memory.within [] n = true := rfl

theorem Memory.within_iff (m : Memory) (n : Nat) : Memory.within m n = true ↔ ∀ p ∈ m, p.1 < n := by
  simp [Memory.within]

/-- An address below every listed one is not listed. -/
theorem Memory.read_below (m : Memory) (a : Nat) (h : ∀ p ∈ m, a < p.1) : Memory.read m a = .uninit := by
  induction m with
  | nil => rfl
  | cons p m ih =>
    have hp := h p (by simp)
    rw [show p = (p.1, p.2) from rfl, Memory.read_cons, if_neg (by omega)]
    exact ih fun q hq => h q (by simp [hq])

/-- What is read is `U` or is listed. -/
theorem Memory.read_mem (m : Memory) (a : Nat) (h : Memory.read m a ≠ .uninit) : (a, Memory.read m a) ∈ m := by
  induction m with
  | nil => exact absurd rfl h
  | cons p m ih =>
    obtain ⟨b, c⟩ := p
    rw [Memory.read_cons] at h ⊢
    split
    · rename_i e
      subst e
      simp
    · rename_i e
      rw [if_neg e] at h
      exact List.mem_cons_of_mem _ (ih h)

theorem Memory.mem_put {a : Nat} {c : Cell} {m : Memory} {p : Nat × Cell} (h : p ∈ Memory.put a c m) :
    p = (a, c) ∨ p ∈ m := by
  unfold Memory.put at h
  split at h
  · exact .inr h
  · simpa using h

/-- A listed cell after a write is the one written or one that was listed. -/
theorem Memory.mem_write {m : Memory} {a : Nat} {c : Cell} {p : Nat × Cell} (h : p ∈ m.write a c) :
    p = (a, c) ∨ p ∈ m := by
  induction m with
  | nil => exact Memory.mem_put h
  | cons q m ih =>
    obtain ⟨b, d⟩ := q
    simp only [Memory.write] at h
    split at h
    · exact Memory.mem_put h
    · split at h
      · exact (Memory.mem_put h).imp id (List.mem_cons_of_mem _)
      · rcases List.mem_cons.mp h with rfl | h
        · exact .inr (by simp)
        · exact (ih h).imp id (List.mem_cons_of_mem _)

theorem Memory.wf_put {a : Nat} {c : Cell} {m : Memory} (hm : m.wf = true) (h : ∀ p ∈ m, a < p.1) :
    Memory.wf (Memory.put a c m) = true := by
  unfold Memory.put
  split
  · exact hm
  · rename_i hc
    exact (Memory.wf_cons a c m).mpr ⟨hc, h, hm⟩

/-- A write keeps the canonical form. -/
theorem Memory.wf_write (m : Memory) (a : Nat) (c : Cell) (h : m.wf = true) : (m.write a c).wf = true := by
  induction m with
  | nil => exact Memory.wf_put rfl (by simp)
  | cons q m ih =>
    obtain ⟨b, d⟩ := q
    obtain ⟨hd, hb, hm⟩ := (Memory.wf_cons b d m).mp h
    simp only [Memory.write]
    split
    · rename_i hab
      refine Memory.wf_put h fun p hp => ?_
      rcases List.mem_cons.mp hp with rfl | hp
      · exact hab
      · exact hab.trans (hb p hp)
    · split
      · rename_i e
        subst e
        exact Memory.wf_put hm hb
      · refine (Memory.wf_cons b d _).mpr ⟨hd, fun p hp => ?_, ih hm⟩
        rcases Memory.mem_write hp with rfl | hp
        · show b < a
          omega
        · exact hb p hp

/-- A write inside the address space keeps every listed cell inside it. -/
theorem Memory.within_write (m : Memory) (a n : Nat) (c : Cell) (h : m.within n = true) (ha : a < n) :
    (m.write a c).within n = true := by
  rw [Memory.within_iff] at h ⊢
  intro p hp
  rcases Memory.mem_write hp with rfl | hp
  · exact ha
  · exact h p hp

theorem Memory.read_put_same (m : Memory) (a : Nat) (c : Cell) (h : ∀ p ∈ m, a < p.1) :
    Memory.read (Memory.put a c m) a = c := by
  unfold Memory.put
  split
  · rename_i hc
    rw [hc]
    exact Memory.read_below m a h
  · rw [Memory.read_cons, if_pos rfl]

theorem Memory.read_put_other (m : Memory) (a b : Nat) (c : Cell) (h : b ≠ a) :
    Memory.read (Memory.put a c m) b = Memory.read m b := by
  unfold Memory.put
  split
  · rfl
  · rw [Memory.read_cons, if_neg h]

/-- Reading what was just written gives it back. -/
theorem Memory.read_write_same (m : Memory) (a : Nat) (c : Cell) (hm : m.wf = true) :
    (m.write a c).read a = c := by
  induction m with
  | nil => exact Memory.read_put_same [] a c (by simp)
  | cons q m ih =>
    obtain ⟨b, d⟩ := q
    obtain ⟨_, hb, hm'⟩ := (Memory.wf_cons b d m).mp hm
    simp only [Memory.write]
    split
    · rename_i hab
      refine Memory.read_put_same _ a c fun p hp => ?_
      rcases List.mem_cons.mp hp with rfl | hp
      · exact hab
      · exact hab.trans (hb p hp)
    · split
      · rename_i e
        subst e
        exact Memory.read_put_same m a c hb
      · rename_i e
        rw [Memory.read_cons, if_neg e]
        exact ih hm'

/-- A write leaves every other cell alone. -/
theorem Memory.read_write_other (m : Memory) (a b : Nat) (c : Cell) (h : b ≠ a) :
    (m.write a c).read b = m.read b := by
  induction m with
  | nil => exact Memory.read_put_other [] a b c h
  | cons q m ih =>
    obtain ⟨x, d⟩ := q
    simp only [Memory.write]
    split
    · exact Memory.read_put_other _ a b c h
    · split
      · rename_i e
        subst e
        rw [Memory.read_put_other m a b c h, Memory.read_cons, if_neg h]
      · rw [Memory.read_cons, Memory.read_cons, ih]

/-- LoadProgram's writes keep the canonical form and the address space. -/
theorem Memory.writeWords_keeps (ws : List Word) (m : Memory) (a n : Nat) (hm : m.wf = true)
    (hn : m.within n = true) (h : a + ws.length ≤ n) :
    (m.writeWords a ws).wf = true ∧ (m.writeWords a ws).within n = true := by
  induction ws generalizing m a with
  | nil => exact ⟨hm, hn⟩
  | cons w ws ih =>
    simp only [List.length_cons] at h
    exact ih _ _ (Memory.wf_write m a _ hm) (Memory.within_write m a n _ hn (by omega)) (by omega)

end Sys2Proof.Machine
end

