-- ==== Sys2Proof/Laws/Num.lean ====
section
/-! SUPPORT. What the numeric primitives compute, in terms of the field operations of the rationals, and what may be assumed of the square root (00_scope.md R11). -/

namespace Sys2Proof.Machine

@[simp] theorem numNeg_eq (v : Number) : numNeg v = -v := rfl
@[simp] theorem numAdd_eq (a b : Number) : numAdd a b = a + b := rfl
@[simp] theorem numSub_eq (a b : Number) : numSub a b = a - b := rfl
@[simp] theorem numMul_eq (a b : Number) : numMul a b = a * b := rfl
@[simp] theorem numDiv_eq (a b : Number) : numDiv a b = a / b := rfl
@[simp] theorem numDisc_eq (a b c : Number) : numDisc a b c = b * b - 4 * a * c := rfl
@[simp] theorem numGe0_iff (v : Number) : numGe0 v = true ↔ 0 ≤ v := by simp [numGe0]

/-- The remainder, with the floor of the library's ordered fields. -/
theorem numMod_eq (a b : Number) : numMod a b = a - b * (⌊a / b⌋ : Number) := by
  rw [numMod]
  rfl

/-- The integer square root with enough fuel is the floor of the root. -/
theorem isqrtFuel_spec (fuel n : Nat) (h : n < 4 ^ fuel) :
    isqrtFuel fuel n * isqrtFuel fuel n ≤ n ∧ n < (isqrtFuel fuel n + 1) * (isqrtFuel fuel n + 1) := by
  induction fuel generalizing n with
  | zero =>
    have : n = 0 := by simpa using h
    subst this
    simp [isqrtFuel]
  | succ fuel ih =>
    have hq : n / 4 < 4 ^ fuel := by
      rw [Nat.div_lt_iff_lt_mul (by norm_num)]
      rwa [pow_succ] at h
    obtain ⟨lo, hi⟩ := ih (n / 4) hq
    simp only [isqrtFuel]
    generalize isqrtFuel fuel (n / 4) = r at lo hi ⊢
    have hdiv : n < 4 * (n / 4) + 4 := by omega
    have hle : 4 * (n / 4) ≤ n := by omega
    split
    · rename_i hc
      exact ⟨hc, by nlinarith⟩
    · rename_i hc
      exact ⟨by nlinarith, by omega⟩

theorem isqrt_spec (n : Nat) : isqrt n * isqrt n ≤ n ∧ n < (isqrt n + 1) * (isqrt n + 1) := by
  refine isqrtFuel_spec _ n ((Nat.lt_log2_self).trans_le ?_)
  exact Nat.pow_le_pow_left (by norm_num) _

/-- The integer square root of a square. -/
theorem isqrt_sq (k : Nat) : isqrt (k * k) = k := by
  obtain ⟨lo, hi⟩ := isqrt_spec (k * k)
  have h1 := Nat.mul_self_le_mul_self_iff.mp lo
  have h2 := Nat.mul_self_lt_mul_self_iff.mp hi
  omega

/-- A rational root is found: it is the non-negative one (R11, R191). -/
theorem exactRoot_mul_self (q : Number) (h : 0 ≤ q) : exactRoot (q * q) = some q := by
  have hn : (q * q).num = q.num * q.num := Rat.mul_self_num q
  have hd : (q * q).den = q.den * q.den := Rat.mul_self_den q
  obtain ⟨p, hp⟩ := Int.eq_ofNat_of_zero_le (Rat.num_nonneg.mpr h)
  have ht : (q * q).num.toNat = p * p := by
    rw [hn, hp]
    exact_mod_cast Int.toNat_natCast (p * p)
  have h0 : 0 ≤ (q * q).num := by
    rw [hn]
    exact mul_self_nonneg _
  simp only [exactRoot, ht, hd, isqrt_sq, h0, and_self, if_true]
  rw [← hp, Rat.mkRat_self]

/-- What `exactRoot` finds is a non-negative root. -/
theorem exactRoot_some {v q : Number} (h : exactRoot v = some q) : 0 ≤ q ∧ q * q = v := by
  simp only [exactRoot] at h
  split at h
  · rename_i hc
    obtain ⟨h0, hp, hq⟩ := hc
    cases h
    have hnum : (v.num : Rat) = (isqrt v.num.toNat : Rat) * isqrt v.num.toNat := by
      have : (v.num.toNat : Int) = v.num := Int.toNat_of_nonneg h0
      rw [← this]
      exact_mod_cast hp.symm
    have hden : (v.den : Rat) = (isqrt v.den : Rat) * isqrt v.den := by exact_mod_cast hq.symm
    refine ⟨by rw [Rat.mkRat_eq_div]; positivity, ?_⟩
    rw [Rat.mkRat_eq_div, div_mul_div_comm]
    conv_rhs => rw [← Rat.num_div_den v, hnum, hden]
    simp
  · cases h

/-- `rootWithin` is R11's two properties. -/
theorem rootWithin_iff (eps v r : Number) : rootWithin eps v r = true ↔ 0 ≤ r ∧ |r * r - v| ≤ eps * v := by
  simp only [rootWithin, Bool.and_eq_true, decide_eq_true_eq, and_assoc, abs_le]
  constructor
  · rintro ⟨h, h1, h2⟩
    exact ⟨h, by linarith, h1⟩
  · rintro ⟨h, h1, h2⟩
    exact ⟨h, h2, by linarith⟩

/-- The bound can always be met. -/
theorem rootWitness_within (eps v : Number) (he : 0 < eps) (hv : 0 < v) :
    0 ≤ rootWitness eps v ∧ |rootWitness eps v * rootWitness eps v - v| ≤ eps * v := by
  set k := eps.den.log2 + 2 with hk
  set p := v.num.toNat with hp
  set d := v.den with hd
  set n := isqrt (p * d * 4 ^ k) with hn
  obtain ⟨lo, hi⟩ := isqrt_spec (p * d * 4 ^ k)
  rw [← hn] at lo hi
  have hdpos : (0 : Rat) < d := by exact_mod_cast v.den_pos
  have hppos : 0 < p := by
    have : 0 < v.num := Rat.num_pos.mpr hv
    omega
  have hpR : (1 : Rat) ≤ p := by exact_mod_cast hppos
  have hdR : (1 : Rat) ≤ d := by exact_mod_cast v.den_pos
  have hveq : v = (p : Rat) / d := by
    have h1 : (v.num.toNat : Int) = v.num := Int.toNat_of_nonneg (Rat.num_pos.mpr hv).le
    conv_lhs => rw [← Rat.num_div_den v, ← h1, ← hp, ← hd]
    rfl
  have hr : rootWitness eps v = (n : Rat) / (d * 2 ^ k) := by
    simp only [rootWitness, ← hk, ← hp, ← hd, ← hn]
    rw [Rat.mkRat_eq_div]
    push_cast
    rfl
  have h2k : (0 : Rat) < 2 ^ k := by positivity
  have hloR : (n : Rat) * n ≤ p * d * 4 ^ k := by exact_mod_cast lo
  have hhiR : (p : Rat) * d * 4 ^ k < (n + 1) * (n + 1) := by exact_mod_cast hi
  have h4 : (4 : Rat) ^ k = 2 ^ k * 2 ^ k := by rw [← mul_pow]; norm_num
  -- the error is at most `2n + 1` units of `1 / (d² 4^k)`
  have hn_le : (n : Rat) ≤ p * d * 2 ^ k := by
    by_contra hc
    push Not at hc
    have h1 : (p * d * 2 ^ k : Rat) * (p * d * 2 ^ k) < n * n := by
      apply mul_self_lt_mul_self (by positivity) hc
    have h2 : (1 : Rat) ≤ p * d := by nlinarith
    have h3 : (p * d * 4 ^ k : Rat) ≤ (p * d * 2 ^ k) * (p * d * 2 ^ k) := by
      rw [h4]
      have : (0 : Rat) < 2 ^ k * 2 ^ k := by positivity
      nlinarith
    linarith
  have heps : (1 : Rat) / eps.den ≤ eps := by
    have hden : (0 : Rat) < eps.den := by exact_mod_cast eps.den_pos
    have hnum : (1 : Rat) ≤ eps.num := by exact_mod_cast Rat.num_pos.mpr he
    conv_rhs => rw [← Rat.num_div_den eps]
    gcongr
  have hk2 : (2 : Rat) * eps.den ≤ 2 ^ k := by
    have h1 : eps.den < 2 ^ (eps.den.log2 + 1) := Nat.lt_log2_self
    have h2 : 2 * eps.den ≤ 2 ^ k := by
      rw [hk, show eps.den.log2 + 2 = (eps.den.log2 + 1) + 1 from rfl, pow_succ]
      omega
    exact_mod_cast h2
  have hk3 : (2 : Rat) ≤ eps * 2 ^ k := by
    have hden : (0 : Rat) < eps.den := by exact_mod_cast eps.den_pos
    calc (2 : Rat) = 1 / eps.den * (2 * eps.den) := by field_simp
      _ ≤ eps * 2 ^ k := by gcongr
  rw [hr]
  have hsq : (n : Rat) / (d * 2 ^ k) * (n / (d * 2 ^ k)) = n * n / (d * d * 4 ^ k) := by
    rw [h4, div_mul_div_comm]
    congr 1
    ring
  have hvq : v = (p * d * 4 ^ k) / (d * d * 4 ^ k) := by
    rw [hveq]
    have : (4 : Rat) ^ k ≠ 0 := by positivity
    field_simp
  refine ⟨by positivity, ?_⟩
  rw [hsq, abs_le]
  have hD : (0 : Rat) < d * d * 4 ^ k := by positivity
  have hup : (n : Rat) * n / (d * d * 4 ^ k) ≤ v := by
    rw [hvq]
    gcongr
  have hle : v - n * n / (d * d * 4 ^ k) ≤ eps * v := by
    rw [hvq, ← sub_div, ← mul_div_assoc]
    gcongr
    -- pd4^k - n² ≤ 2n ≤ 2·pd·2^k ≤ eps·2^k·pd·2^k
    have e1 : (p * d * 4 ^ k - n * n : Rat) ≤ 2 * n := by
      have hiN : p * d * 4 ^ k ≤ n * n + 2 * n := by nlinarith
      have : ((p * d * 4 ^ k : Nat) : Rat) ≤ ((n * n + 2 * n : Nat) : Rat) := by exact_mod_cast hiN
      push_cast at this
      linarith
    calc (p * d * 4 ^ k - n * n : Rat) ≤ 2 * n := e1
      _ ≤ 2 * (p * d * 2 ^ k) := by gcongr
      _ ≤ (eps * 2 ^ k) * (p * d * 2 ^ k) := by gcongr
      _ = eps * (p * d * 4 ^ k) := by rw [h4]; ring
  have hnn : 0 ≤ eps * v := by positivity
  constructor <;> linarith

/-- All that may be assumed of `SQRT_APPROX` (R11, R191 (d)). -/
theorem sqrtApprox_within (eps v : Number) (he : 0 < eps) (hv : 0 < v) :
    0 ≤ sqrtApprox eps v ∧ |sqrtApprox eps v * sqrtApprox eps v - v| ≤ eps * v := by
  unfold sqrtApprox
  split
  · rename_i h
    exact (rootWithin_iff eps v _).mp h
  · exact rootWitness_within eps v he hv

/-- The square root where it is rational. -/
theorem numSqrt_mul_self (eps q : Number) (h : 0 ≤ q) : numSqrt eps (q * q) = q := by
  simp [numSqrt, exactRoot_mul_self q h]

/-- The square root of any non-negative number is within the bound. -/
theorem numSqrt_within (eps v : Number) (he : 0 < eps) (hv : 0 ≤ v) :
    0 ≤ numSqrt eps v ∧ |numSqrt eps v * numSqrt eps v - v| ≤ eps * v := by
  unfold numSqrt
  split
  · rename_i q h
    obtain ⟨h0, hq⟩ := exactRoot_some h
    refine ⟨h0, ?_⟩
    rw [hq]
    simpa using by positivity
  · rename_i h
    rcases hv.lt_or_eq with h' | rfl
    · exact sqrtApprox_within eps v he h'
    · have := exactRoot_mul_self 0 le_rfl
      simp [h] at this

end Sys2Proof.Machine
end

