-- ==== Sys2Proof/Laws/Ops.lean ====
section
/-! SUPPORT. Everything a shared operation can answer: one lemma per case of an access, and what the end of an EXECUTE phase is. -/

namespace Sys2Proof.Machine

variable {s t : State}

/-! ## Reads -/

theorem State.memRead_outside {a : Addr} (h : s.cfg.memSize ≤ a.toNat) : s.memRead a = .error (.addressError a) := by
  simp [State.memRead, h]

theorem State.memReadNum_outside {a : Addr} (h : s.cfg.memSize ≤ a.toNat) :
    s.memReadNum a = .error (.addressError a) := by
  simp [State.memReadNum, State.memRead_outside h]

theorem State.memReadNum_uninit {a : Addr} (h : a.toNat < s.cfg.memSize) (hc : s.mem.read a.toNat = .uninit) :
    s.memReadNum a = .error (.uninitialisedRead a) := by
  simp [State.memReadNum, State.memRead, Nat.not_le.mpr h, hc]

theorem State.memReadNum_word {a : Addr} {w : Word} (h : a.toNat < s.cfg.memSize)
    (hc : s.mem.read a.toNat = .word w) : s.memReadNum a = .error (.cellKindError .operand a) := by
  simp [State.memReadNum, State.memRead, Nat.not_le.mpr h, hc, Cell.num?]

theorem State.memReadNum_num {a : Addr} {v : Number} (h : a.toNat < s.cfg.memSize)
    (hc : s.mem.read a.toNat = .num v) : s.memReadNum a = .ok (v, s.noteAccess a (.num v)) := by
  simp [State.memReadNum, State.memRead, Nat.not_le.mpr h, hc, Cell.num?]

theorem State.memReadWord_outside {a : Addr} (h : s.cfg.memSize ≤ a.toNat) :
    s.memReadWord a = .error (.addressError a) := by
  simp [State.memReadWord, State.memRead_outside h]

theorem State.memReadWord_uninit {a : Addr} (h : a.toNat < s.cfg.memSize) (hc : s.mem.read a.toNat = .uninit) :
    s.memReadWord a = .error (.uninitialisedRead a) := by
  simp [State.memReadWord, State.memRead, Nat.not_le.mpr h, hc]

theorem State.memReadWord_num {a : Addr} {v : Number} (h : a.toNat < s.cfg.memSize)
    (hc : s.mem.read a.toNat = .num v) : s.memReadWord a = .error (.cellKindError .fetch a) := by
  simp [State.memReadWord, State.memRead, Nat.not_le.mpr h, hc, Cell.word?]

theorem State.memReadWord_word {a : Addr} {w : Word} (h : a.toNat < s.cfg.memSize)
    (hc : s.mem.read a.toNat = .word w) : s.memReadWord a = .ok (w, s.noteAccess a (.word w)) := by
  simp [State.memReadWord, State.memRead, Nat.not_le.mpr h, hc, Cell.word?]

/-- Everything a numeric read can answer (R58, R59): its three faults, or the number. -/
theorem State.memReadNum_cases (s : State) (a : Addr) :
    (s.cfg.memSize ≤ a.toNat ∧ s.memReadNum a = .error (.addressError a)) ∨
    (a.toNat < s.cfg.memSize ∧ s.mem.read a.toNat = .uninit ∧ s.memReadNum a = .error (.uninitialisedRead a)) ∨
    (∃ w, a.toNat < s.cfg.memSize ∧ s.mem.read a.toNat = .word w ∧
      s.memReadNum a = .error (.cellKindError .operand a)) ∨
    (∃ v, a.toNat < s.cfg.memSize ∧ s.mem.read a.toNat = .num v ∧
      s.memReadNum a = .ok (v, s.noteAccess a (.num v))) := by
  rcases Nat.lt_or_ge a.toNat s.cfg.memSize with h | h
  · rcases hc : s.mem.read a.toNat with w | v | _
    · exact .inr (.inr (.inl ⟨w, h, rfl, State.memReadNum_word h hc⟩))
    · exact .inr (.inr (.inr ⟨v, h, rfl, State.memReadNum_num h hc⟩))
    · exact .inr (.inl ⟨h, rfl, State.memReadNum_uninit h hc⟩)
  · exact .inl ⟨h, State.memReadNum_outside h⟩

/-- Everything a fetch can answer (R58, R61): its three faults, or the word. -/
theorem State.memReadWord_cases (s : State) (a : Addr) :
    (s.cfg.memSize ≤ a.toNat ∧ s.memReadWord a = .error (.addressError a)) ∨
    (a.toNat < s.cfg.memSize ∧ s.mem.read a.toNat = .uninit ∧ s.memReadWord a = .error (.uninitialisedRead a)) ∨
    (∃ v, a.toNat < s.cfg.memSize ∧ s.mem.read a.toNat = .num v ∧
      s.memReadWord a = .error (.cellKindError .fetch a)) ∨
    (∃ w, a.toNat < s.cfg.memSize ∧ s.mem.read a.toNat = .word w ∧
      s.memReadWord a = .ok (w, s.noteAccess a (.word w))) := by
  rcases Nat.lt_or_ge a.toNat s.cfg.memSize with h | h
  · rcases hc : s.mem.read a.toNat with w | v | _
    · exact .inr (.inr (.inr ⟨w, h, rfl, State.memReadWord_word h hc⟩))
    · exact .inr (.inr (.inl ⟨v, h, rfl, State.memReadWord_num h hc⟩))
    · exact .inr (.inl ⟨h, rfl, State.memReadWord_uninit h hc⟩)
  · exact .inl ⟨h, State.memReadWord_outside h⟩

/-- Everything a write can answer (R60). -/
theorem State.memWrite_cases (s : State) (a : Addr) (c : Cell) :
    (s.cfg.memSize ≤ a.toNat ∧ s.memWrite a c = .error (.addressError a)) ∨
    (a.toNat < s.cfg.memSize ∧
      s.memWrite a c = .ok { s with mar := a, mbr := c, mem := s.mem.write a.toNat c }) := by
  rcases Nat.lt_or_ge a.toNat s.cfg.memSize with h | h
  · exact .inr ⟨h, by simp [State.memWrite, Nat.not_le.mpr h, State.noteAccess]⟩
  · exact .inl ⟨h, by simp [State.memWrite, h]⟩

/-! ## The end of an EXECUTE phase -/

@[simp] theorem State.completePhase_ok : s.completePhase (.ok t) = .next t := rfl

@[simp] theorem State.completePhase_error (f : EngineFault) : s.completePhase (.error f) = .next (s.raise f) := rfl

/-- An EXECUTE phase that reads one number: a fault of the read is taken; otherwise the phase goes on with the number. -/
theorem State.withOperand_cases (s : State) (x : Addr) (k : Number → State → Except EngineFault State) :
    (∃ f, s.memReadNum x = .error f ∧ s.withOperand x k = .next (s.raise f)) ∨
    (∃ v, x.toNat < s.cfg.memSize ∧ s.mem.read x.toNat = .num v ∧
      s.withOperand x k = s.completePhase (k v (s.noteAccess x (.num v)))) := by
  rcases s.memReadNum_cases x with ⟨_, e⟩ | ⟨_, _, e⟩ | ⟨_, _, _, e⟩ | ⟨v, h, hc, e⟩
  · exact .inl ⟨_, e, by simp [State.withOperand, e]⟩
  · exact .inl ⟨_, e, by simp [State.withOperand, e]⟩
  · exact .inl ⟨_, e, by simp [State.withOperand, e]⟩
  · exact .inr ⟨v, h, hc, by simp [State.withOperand, e]⟩

/-- A numeric read that answers has read a number in memory, and leaves its address and value in MAR and MBR. -/
theorem State.memReadNum_ok {a : Addr} {v : Number} (h : s.memReadNum a = .ok (v, t)) :
    a.toNat < s.cfg.memSize ∧ s.mem.read a.toNat = .num v ∧ t = s.noteAccess a (.num v) := by
  rcases s.memReadNum_cases a with ⟨_, e⟩ | ⟨_, _, e⟩ | ⟨_, _, _, e⟩ | ⟨u, hu, hc, e⟩ <;> rw [e] at h <;> cases h
  exact ⟨hu, hc, rfl⟩

/-- The address of a DISC field is the number in it. -/
theorem discAddr_toNat (d : DiscField) : (d.setWidth 12).toNat = d.toNat := by
  have := d.isLt
  simp only [BitVec.toNat_setWidth]
  omega

/-- The three reads of DISC that answer have read three numbers, and leave MAR and MBR at the third cell (R190). -/
theorem State.readThree_ok {i j k : DiscField} {a b c : Number} (h : s.readThree i j k = .ok (a, b, c, t)) :
    s.mem.read i.toNat = .num a ∧ s.mem.read j.toNat = .num b ∧ s.mem.read k.toNat = .num c ∧
      t = s.noteAccess (k.setWidth 12) (.num c) := by
  simp only [State.readThree] at h
  split at h
  · cases h
  · rename_i _ _ _ e₁
    obtain ⟨_, h₁, rfl⟩ := State.memReadNum_ok e₁
    split at h
    · cases h
    · rename_i _ _ _ e₂
      obtain ⟨_, h₂, rfl⟩ := State.memReadNum_ok e₂
      split at h
      · cases h
      · rename_i _ _ _ e₃
        obtain ⟨_, h₃, rfl⟩ := State.memReadNum_ok e₃
        cases h
        simp only [State.noteAccess_mem, discAddr_toNat] at h₁ h₂ h₃
        exact ⟨h₁, h₂, h₃, rfl⟩

end Sys2Proof.Machine
end

