-- ==== Sys2Proof/Laws/Exec.lean ====
section
/-! SUPPORT. Everything an EXECUTE phase can do, said once: a fault is taken and nothing else changes, or the phase completes, and then what it may have changed. -/

namespace Sys2Proof.Machine

/-- What a completed EXECUTE phase of `i` leaves alone, and how it may change PC and memory (10_state.md R36). -/
structure Completes (i : Instr) (s t : State) : Prop where
  status : t.status = s.status
  cfg    : t.cfg = s.cfg
  cyc    : t.cyc = s.cyc
  phase  : t.phase = s.phase
  ir     : t.ir = s.ir
  ibr    : t.ibr = s.ibr
  pc     : t.pc = s.pc ∨ ∃ x, i = .jumpPlus x ∧ 0 ≤ s.ac ∧ t.pc = x - 1#12
  mem    : t.mem = s.mem ∨ ∃ x, i = .stor x ∧ x.toNat < s.cfg.memSize ∧ t.mem = s.mem.write x.toNat (.num s.ac)

variable {s t : State} {i : Instr}

/-- A state that differs from `s` in AC, MQ, MAR and MBR only is a completed EXECUTE phase of any instruction. -/
theorem Completes.ofRegisters (i : Instr) (s : State) (ac mq : Number) (mar : Addr) (mbr : Cell) :
    Completes i s { s with ac := ac, mq := mq, mar := mar, mbr := mbr } :=
  ⟨rfl, rfl, rfl, rfl, rfl, rfl, .inl rfl, .inl rfl⟩

/-- The phase of an instruction with one operand read, whose effect is on AC and MQ only, unless it raises. -/
theorem State.withOperand_completes (s : State) (x : Addr) (k : Number → State → Except EngineFault State)
    (hk : ∀ v t u, k v t = .ok u → ∃ ac mq, u = { t with ac := ac, mq := mq }) :
    (∃ f, s.withOperand x k = .next (s.raise f)) ∨ ∃ t, s.withOperand x k = .next t ∧ Completes i s t := by
  rcases s.withOperand_cases x k with ⟨f, -, e⟩ | ⟨v, -, -, e⟩
  · exact .inl ⟨f, e⟩
  · rcases h : k v (s.noteAccess x (.num v)) with f | u
    · exact .inl ⟨f, by rw [e, h, State.completePhase_error]⟩
    · obtain ⟨ac, mq, rfl⟩ := hk _ _ _ h
      exact .inr ⟨_, by rw [e, h, State.completePhase_ok]; rfl, Completes.ofRegisters i s ac mq x (.num v)⟩

/-- Everything `exec` can answer: the state with a fault taken, or a completed phase. -/
theorem exec_cases (i : Instr) (s : State) :
    (∃ f, exec i s = .next (s.raise f)) ∨ ∃ t, exec i s = .next t ∧ Completes i s t := by
  cases i with
  | halt => exact .inr ⟨s, rfl, Completes.ofRegisters _ s _ _ _ _⟩
  | loadMq => exact .inr ⟨_, rfl, Completes.ofRegisters _ s _ _ _ _⟩
  | loadNeg x => exact s.withOperand_completes x _ fun v t u h => by cases h; exact ⟨_, _, rfl⟩
  | add x => exact s.withOperand_completes x _ fun v t u h => by cases h; exact ⟨_, _, rfl⟩
  | sub x => exact s.withOperand_completes x _ fun v t u h => by cases h; exact ⟨_, _, rfl⟩
  | loadMqMem x => exact s.withOperand_completes x _ fun v t u h => by cases h; exact ⟨_, _, rfl⟩
  | mul x => exact s.withOperand_completes x _ fun v t u h => by cases h; exact ⟨_, _, rfl⟩
  | div x =>
    exact s.withOperand_completes x _ fun v t u h => by
      split at h <;> cases h
      exact ⟨_, _, rfl⟩
  | sqrt x =>
    exact s.withOperand_completes x _ fun v t u h => by
      split at h <;> cases h
      exact ⟨_, _, rfl⟩
  | disc i j k =>
    simp only [exec, execDisc]
    split
    · exact .inl ⟨_, rfl⟩
    · rename_i e
      obtain ⟨-, -, -, rfl⟩ := State.readThree_ok e
      exact .inr ⟨_, rfl, Completes.ofRegisters _ s _ _ _ _⟩
  | jumpPlus x =>
    simp only [exec, execJumpPlus]
    split
    · rename_i h
      exact .inr ⟨_, rfl, rfl, rfl, rfl, rfl, rfl, rfl, .inr ⟨x, rfl, (numGe0_iff _).mp h, rfl⟩, .inl rfl⟩
    · exact .inr ⟨s, rfl, Completes.ofRegisters _ s _ _ _ _⟩
  | stor x =>
    simp only [exec, execStor]
    rcases s.memWrite_cases x (.num s.ac) with ⟨_, e⟩ | ⟨h, e⟩
    · exact .inl ⟨_, by rw [e, State.completePhase_error]⟩
    · refine .inr ⟨{ s with mar := x, mbr := .num s.ac, mem := s.mem.write x.toNat (.num s.ac) }, ?_,
        rfl, rfl, rfl, rfl, rfl, rfl, .inl rfl, .inr ⟨x, rfl, h, rfl⟩⟩
      rw [e, State.completePhase_ok]

end Sys2Proof.Machine
end

