-- ==== Sys2Proof/Laws/Cycle.lean ====
section
/-! SUPPORT. Everything FETCH and a half of a word can do, and how a word cycle is put together from them. -/

namespace Sys2Proof.Machine

variable {s t : State}

@[simp] theorem whileRunning_running (k : State → Host.Outcome State Fault Refusal) (h : t.status = .running) :
    whileRunning (.next t) k = k t := by
  simp [whileRunning, h]

@[simp] theorem whileRunning_stopped (k : State → Host.Outcome State Fault Refusal) (h : t.status ≠ .running) :
    whileRunning (.next t) k = .next t := by
  simp [whileRunning, h]

@[simp] theorem whileRunning_fault (k : State → Host.Outcome State Fault Refusal) (f : Fault) :
    whileRunning (.fault f) k = .fault f := rfl

/-- The state in which FETCH goes on to DECODE-LEFT. -/
def State.fetched (s : State) (w : Word) : State := { s.noteAccess s.pc (.word w) with phase := .decodeLeft }

/-- The conditions under which FETCH goes on with the word `w` (R141, lines 1 to 5). -/
structure State.Fetches (s : State) (w : Word) : Prop where
  notEnd     : s.pc ≠ s.cfg.haltPc
  notNoRoots : s.pc ≠ s.cfg.noRootsPc
  inside     : s.pc.toNat < s.cfg.memSize
  cell       : s.mem.read s.pc.toNat = .word w
  notHalt    : w ≠ 0#40
  below      : s.cyc < s.cfg.maxCycles

theorem State.Fetches.fetchWord {w : Word} (h : s.Fetches w) : s.fetchWord = .ok (w, s.fetched w) := by
  simp [State.fetchWord, h.notEnd, h.notNoRoots, State.memReadWord_word h.inside h.cell, h.notHalt,
    Nat.not_le.mpr h.below, State.fetched]

/-- What a stopped FETCH leaves: only MAR, MBR, STATUS and the sequencing state can differ. -/
structure StoppedAtFetch (s t : State) : Prop where
  stopped : t.status ≠ .running
  pc      : t.pc = s.pc
  ac      : t.ac = s.ac
  mq      : t.mq = s.mq
  ir      : t.ir = s.ir
  ibr     : t.ibr = s.ibr
  mem     : t.mem = s.mem
  cyc     : t.cyc = s.cyc
  phase   : t.phase = .fetch
  cfg     : t.cfg = s.cfg

theorem StoppedAtFetch.ofRaise (s : State) (mar : Addr) (mbr : Cell) (f : EngineFault) :
    StoppedAtFetch s (State.raiseIn { s with mar := mar, mbr := mbr } .fetch f) :=
  ⟨by simp, rfl, rfl, rfl, rfl, rfl, rfl, rfl, rfl, rfl⟩

theorem StoppedAtFetch.ofHalt (s : State) (mar : Addr) (mbr : Cell) (r : HaltReason) :
    StoppedAtFetch s (State.halt { s with mar := mar, mbr := mbr } r) :=
  ⟨by simp, rfl, rfl, rfl, rfl, rfl, rfl, rfl, rfl, rfl⟩

theorem State.fetchWord_end (h : s.pc = s.cfg.haltPc) : s.fetchWord = .error (s.halt .endSentinel) := by
  rw [State.fetchWord, if_pos h]

theorem State.fetchWord_noRoots (h : s.pc ≠ s.cfg.haltPc) (h' : s.pc = s.cfg.noRootsPc) :
    s.fetchWord = .error (s.halt .noRealRoots) := by
  rw [State.fetchWord, if_neg h, if_pos h']

theorem State.fetchWord_fault {f : EngineFault} (h : s.pc ≠ s.cfg.haltPc) (h' : s.pc ≠ s.cfg.noRootsPc)
    (e : s.memReadWord s.pc = .error f) : s.fetchWord = .error (s.raiseIn .fetch f) := by
  rw [State.fetchWord, if_neg h, if_neg h', e]

theorem State.fetchWord_haltWord (h : s.pc ≠ s.cfg.haltPc) (h' : s.pc ≠ s.cfg.noRootsPc)
    (hin : s.pc.toNat < s.cfg.memSize) (hc : s.mem.read s.pc.toNat = .word 0#40) :
    s.fetchWord = .error ((s.noteAccess s.pc (.word 0#40)).halt .haltWord) := by
  rw [State.fetchWord, if_neg h, if_neg h', State.memReadWord_word hin hc]
  simp

theorem State.fetchWord_ceiling {w : Word} (h : s.pc ≠ s.cfg.haltPc) (h' : s.pc ≠ s.cfg.noRootsPc)
    (hin : s.pc.toNat < s.cfg.memSize) (hc : s.mem.read s.pc.toNat = .word w) (hw : w ≠ 0#40)
    (hm : s.cfg.maxCycles ≤ s.cyc) :
    s.fetchWord = .error ((s.noteAccess s.pc (.word w)).raiseIn .fetch (.nonTermination s.pc)) := by
  rw [State.fetchWord, if_neg h, if_neg h', State.memReadWord_word hin hc]
  simp [hw, hm]

/-- Everything FETCH can answer: the engine stops, or it goes on with the word at PC. -/
theorem State.fetchWord_cases (s : State) :
    (∃ t, s.fetchWord = .error t ∧ StoppedAtFetch s t) ∨
    ∃ w, s.fetchWord = .ok (w, s.fetched w) ∧ s.Fetches w := by
  by_cases h1 : s.pc = s.cfg.haltPc
  · exact .inl ⟨_, State.fetchWord_end h1, StoppedAtFetch.ofHalt s s.mar s.mbr _⟩
  by_cases h2 : s.pc = s.cfg.noRootsPc
  · exact .inl ⟨_, State.fetchWord_noRoots h1 h2, StoppedAtFetch.ofHalt s s.mar s.mbr _⟩
  rcases s.memReadWord_cases s.pc with ⟨_, e⟩ | ⟨_, _, e⟩ | ⟨_, _, _, e⟩ | ⟨w, hin, hc, _⟩
  · exact .inl ⟨_, State.fetchWord_fault h1 h2 e, StoppedAtFetch.ofRaise s s.mar s.mbr _⟩
  · exact .inl ⟨_, State.fetchWord_fault h1 h2 e, StoppedAtFetch.ofRaise s s.mar s.mbr _⟩
  · exact .inl ⟨_, State.fetchWord_fault h1 h2 e, StoppedAtFetch.ofRaise s s.mar s.mbr _⟩
  · by_cases hw : w = 0#40
    · subst hw
      exact .inl ⟨_, State.fetchWord_haltWord h1 h2 hin hc, StoppedAtFetch.ofHalt s _ _ _⟩
    · rcases Nat.lt_or_ge s.cyc s.cfg.maxCycles with hm | hm
      · exact .inr ⟨w, State.Fetches.fetchWord ⟨h1, h2, hin, hc, hw, hm⟩, h1, h2, hin, hc, hw, hm⟩
      · exact .inl ⟨_, State.fetchWord_ceiling h1 h2 hin hc hw hm, StoppedAtFetch.ofRaise s _ _ _⟩

/-- Putting a slot together again from its fields. -/
@[simp] theorem mkSlot_fields (b : Slot) : mkSlot (opcodeField b) (addrField b) = b := by
  simp only [mkSlot, opcodeField, addrField]
  apply BitVec.eq_of_toNat_eq
  have := b.isLt
  simp only [BitVec.toNat_append, BitVec.extractLsb'_toNat, Nat.shiftRight_zero]
  rw [← Nat.shiftLeft_add_eq_or_of_lt (by omega), Nat.shiftLeft_eq, Nat.shiftRight_eq_div_pow]
  omega

/-- A half of a word: the instruction in its slot, or IllegalInstruction (R152). -/
theorem State.execHalf_cases (s : State) :
    (∃ i, decodeSlot s.cfg.opc (mkSlot s.ir s.mar) = .instr i ∧ s.execHalf = exec i s) ∨
    (∃ o, decodeSlot s.cfg.opc (mkSlot s.ir s.mar) = .illegal o ∧
      s.execHalf = .next (s.raise (.illegalInstruction o))) := by
  rcases h : decodeSlot s.cfg.opc (mkSlot s.ir s.mar) with i | o
  · exact .inl ⟨i, rfl, by simp [State.execHalf, h]⟩
  · exact .inr ⟨o, rfl, by simp [State.execHalf, h]⟩

/-- Everything a half of a word can do: a fault is taken, or its instruction completes. -/
theorem State.execHalf_completes (s : State) :
    (∃ f, s.execHalf = .next (s.raise f)) ∨
    ∃ i t, decodeSlot s.cfg.opc (mkSlot s.ir s.mar) = .instr i ∧ s.execHalf = .next t ∧ Completes i s t := by
  rcases s.execHalf_cases with ⟨i, hd, e⟩ | ⟨o, -, e⟩
  · rcases exec_cases i s with ⟨f, h⟩ | ⟨t, h, hc⟩
    · exact .inl ⟨f, by rw [e, h]⟩
    · exact .inr ⟨i, t, hd, by rw [e, h], hc⟩
  · exact .inl ⟨_, e⟩

/-- A word cycle that goes past FETCH is its two halves and ADVANCE (R141, lines 6 to 10). -/
theorem State.stepWord_eq {w : Word} (hs : s.status = .running) (h : s.Fetches w) :
    s.stepWord = whileRunning ((s.fetched w).decodeLeft w).execHalf fun t =>
      whileRunning t.decodeRight.execHalf fun u => .next u.advance := by
  simp [State.stepWord, hs, h.fetchWord]

end Sys2Proof.Machine
end

