-- ==== Sys2Proof/Laws/Encoder.lean ====
section
/-! SUPPORT. What each reader of the Encoder answers on a text of its form (35_encoder.md R112), and how `tokens` goes over the first character of a line. -/

namespace Sys2Proof.Machine

theorem tokens_nil : tokens [] = [] := rfl

theorem tokens_blank {c : Char} (h : isBlank c = true) (cs : List Char) : tokens (c :: cs) = tokens cs := by
  conv_lhs => unfold tokens
  simp [h]

theorem tokens_single {c : Char} (h : isBlank c = false) : tokens [c] = [[c]] := by
  unfold tokens
  simp [h]

/-- A token ends before a blank. -/
theorem tokens_before_blank {c d : Char} (h : isBlank c = false) (hd : isBlank d = true) (cs : List Char) :
    tokens (c :: d :: cs) = [c] :: tokens (d :: cs) := by
  conv_lhs => unfold tokens
  simp [h, hd]

/-- A token goes on where no blank follows. -/
theorem tokens_grow {c d : Char} {t : Token} {ts : List Token} {cs : List Char} (h : isBlank c = false)
    (hd : isBlank d = false) (e : tokens (d :: cs) = t :: ts) : tokens (c :: d :: cs) = (c :: t) :: ts := by
  conv_lhs => unfold tokens
  simp [h, hd, e]

theorem digitRun_append {ds rest : List Char} (hd : ∀ c ∈ ds, c.isDigit = true)
    (hr : ∀ c, rest.head? = some c → c.isDigit = false) : digitRun (ds ++ rest) = (ds, rest) := by
  induction ds with
  | nil =>
    cases rest with
    | nil => rfl
    | cons c _ => simp [digitRun, hr c rfl]
  | cons d ds ih => simp [digitRun, hd d (by simp), ih fun c hc => hd c (by simp [hc])]

variable {ds : List Char} {n : Nat}

theorem readDec_append {rest : List Char} (hne : ds ≠ []) (hd : ∀ c ∈ ds, c.isDigit = true) (hv : decValue ds = n)
    (hr : ∀ c, rest.head? = some c → c.isDigit = false) : readDec (ds ++ rest) = some (n, rest) := by
  simp [readDec, digitRun_append hd hr, hne, hv]

theorem readMref_append (rest : List Char) (hne : ds ≠ []) (hd : ∀ c ∈ ds, c.isDigit = true) (hv : decValue ds = n) :
    readMref ('M' :: '(' :: (ds ++ ')' :: rest)) = some (n, rest) := by
  have h : readDec (ds ++ ')' :: rest) = some (n, ')' :: rest) := readDec_append hne hd hv (by simp)
  simp [readMref, readLit, h]

theorem tokMref_mref (hne : ds ≠ []) (hd : ∀ c ∈ ds, c.isDigit = true) (hv : decValue ds = n) :
    tokMref ('M' :: '(' :: (ds ++ [')'])) = some n := by
  simp [tokMref, readMref_append [] hne hd hv]

theorem tokNegMref_mref (hne : ds ≠ []) (hd : ∀ c ∈ ds, c.isDigit = true) (hv : decValue ds = n) :
    tokNegMref ('-' :: 'M' :: '(' :: (ds ++ [')'])) = some n := by
  simp [tokNegMref, readLit, tokMref_mref hne hd hv]

theorem tokMqMref_mref (hne : ds ≠ []) (hd : ∀ c ∈ ds, c.isDigit = true) (hv : decValue ds = n) :
    tokMqMref ('M' :: 'Q' :: ',' :: 'M' :: '(' :: (ds ++ [')'])) = some n := by
  simp [tokMqMref, readLit, tokMref_mref hne hd hv]

/-- A `JREF` is `M(` DEC followed by exactly `,0:19)`. -/
theorem tokJref_append {rest : List Char} (hne : ds ≠ []) (hd : ∀ c ∈ ds, c.isDigit = true) (hv : decValue ds = n)
    (hr : ∀ c, rest.head? = some c → c.isDigit = false) :
    tokJref ('M' :: '(' :: (ds ++ rest)) = if rest = [',', '0', ':', '1', '9', ')'] then some n else none := by
  simp [tokJref, readLit, readDec_append hne hd hv hr]

theorem memOp?_memOpName (op : MemOp) : memOp? (memOpName op) = some op := by
  cases op <;> simp [memOp?, memOpName]

end Sys2Proof.Machine
end

