-- ==== Sys2Proof/Laws/Step.lean ====
section
/-! SUPPORT. Everything a step can do, said once, and a run's induction principle. -/

namespace Sys2Proof.Machine

variable {s t : State}

theorem step_eq (s : State) : step s = s.stepWord := rfl

theorem step_notRunning (h : s.status ≠ .running) : step s = .fault (.noStep s.status) := by
  simp [step_eq, State.stepWord, h]

theorem step_stopped (hs : s.status = .running) (h : s.fetchWord = .error t) : step s = .next t := by
  simp [step_eq, State.stepWord, hs, h]

theorem State.raise_not_running (f : EngineFault) : (s.raise f).status ≠ .running := by simp

/-- Where the left half completes, its instruction was the one in the left slot of the fetched word. -/
theorem State.decodeLeft_slot (s : State) (w : Word) :
    mkSlot (s.decodeLeft w).ir (s.decodeLeft w).mar = leftSlot w := by simp

/-- The right half executes the right slot of the fetched word, whatever the left half did. -/
theorem Completes.rightSlot {i : Instr} {w : Word} (h : Completes i ((s.fetched w).decodeLeft w) t) :
    mkSlot t.decodeRight.ir t.decodeRight.mar = rightSlot w := by
  simp [h.ibr]

/-- Everything a word cycle that goes past FETCH can answer: the left half faults; the left half completes and the
right half faults; or both complete and ADVANCE follows. -/
theorem step_fetched {w : Word} (hs : s.status = .running) (hw : s.Fetches w) :
    (∃ f, step s = .next (((s.fetched w).decodeLeft w).raise f)) ∨
    ∃ i t, decodeSlot s.cfg.opc (leftSlot w) = .instr i ∧ exec i ((s.fetched w).decodeLeft w) = .next t ∧
      Completes i ((s.fetched w).decodeLeft w) t ∧
      ((∃ f, step s = .next (t.decodeRight.raise f)) ∨
      ∃ j u, decodeSlot s.cfg.opc (rightSlot w) = .instr j ∧ exec j t.decodeRight = .next u ∧
        Completes j t.decodeRight u ∧ step s = .next u.advance) := by
  rw [step_eq, State.stepWord_eq hs hw]
  rcases ((s.fetched w).decodeLeft w).execHalf_cases with ⟨i, hi, e⟩ | ⟨o, -, e⟩
  · rw [State.decodeLeft_slot] at hi
    rcases exec_cases i ((s.fetched w).decodeLeft w) with ⟨f, hf⟩ | ⟨t, ht, hc⟩
    · exact .inl ⟨f, by rw [e, hf, whileRunning_stopped _ (State.raise_not_running f)]⟩
    · have htr : t.status = .running := hc.status.trans hs
      refine .inr ⟨i, t, hi, ht, hc, ?_⟩
      rw [e, ht, whileRunning_running _ htr]
      rcases t.decodeRight.execHalf_cases with ⟨j, hj, e'⟩ | ⟨o, -, e'⟩
      · rw [hc.rightSlot, show t.decodeRight.cfg = s.cfg from hc.cfg] at hj
        rcases exec_cases j t.decodeRight with ⟨f, hf⟩ | ⟨u, hu, hc'⟩
        · exact .inl ⟨f, by rw [e', hf, whileRunning_stopped _ (State.raise_not_running f)]⟩
        · exact .inr ⟨j, u, hj, hu, hc', by
            rw [e', hu, whileRunning_running _ (hc'.status.trans htr)]⟩
      · exact .inl ⟨_, by rw [e', whileRunning_stopped _ (State.raise_not_running _)]⟩
  · exact .inl ⟨_, by rw [e, whileRunning_stopped _ (State.raise_not_running _)]⟩

/-- Everything a step of a running machine can answer: the engine stops at FETCH, or the cases of `step_fetched`. -/
theorem step_cases (hs : s.status = .running) :
    (∃ t, step s = .next t ∧ StoppedAtFetch s t) ∨
    ∃ w, s.Fetches w ∧
      ((∃ f, step s = .next (((s.fetched w).decodeLeft w).raise f)) ∨
      ∃ i t, decodeSlot s.cfg.opc (leftSlot w) = .instr i ∧ exec i ((s.fetched w).decodeLeft w) = .next t ∧
        Completes i ((s.fetched w).decodeLeft w) t ∧
        ((∃ f, step s = .next (t.decodeRight.raise f)) ∨
        ∃ j u, decodeSlot s.cfg.opc (rightSlot w) = .instr j ∧ exec j t.decodeRight = .next u ∧
          Completes j t.decodeRight u ∧ step s = .next u.advance)) := by
  rcases s.fetchWord_cases with ⟨t, e, ht⟩ | ⟨w, -, hw⟩
  · exact .inl ⟨t, step_stopped hs e, ht⟩
  · exact .inr ⟨w, hw, step_fetched hs hw⟩

/-- What every step keeps holds at the end of a run of any length (R154): the induction, once. -/
theorem runWords_keeps (P : State → Prop) (hP : ∀ s t, P s → step s = .next t → P t) (n : Nat) :
    ∀ s t, P s → runWords n s = .next t → P t := by
  induction n with
  | zero => intro s t h e; cases e; exact h
  | succ n ih =>
    intro s t h e
    simp only [runWords] at e
    rcases hstep : step s with u | f | r
    · rw [hstep] at e
      by_cases hu : u.status = .running
      · rw [whileRunning_running _ hu] at e
        exact ih u t (hP s u h hstep) e
      · rw [whileRunning_stopped _ hu] at e
        cases e
        exact hP s _ h hstep
    · rw [hstep] at e
      cases e
    · rw [hstep] at e
      cases e

end Sys2Proof.Machine
end

