-- ==== Sys2Proof/Laws/PerInstr.lean ====
section
/-! SUPPORT. One lemma per instruction for each family of statements about instructions as syntax. -/

namespace Sys2Proof.Laws

open Sys2Proof.Machine

/-- The opcode field of a slot put together from its parts. -/
@[simp] theorem opcodeField_mkSlot (o : Opcode) (f : Addr) : opcodeField (mkSlot o f) = o := by
  apply BitVec.eq_of_toNat_eq
  have := f.isLt
  have := o.isLt
  simp only [mkSlot, opcodeField, BitVec.extractLsb'_toNat, BitVec.toNat_append]
  rw [← Nat.shiftLeft_add_eq_or_of_lt (by omega), Nat.shiftLeft_eq, Nat.shiftRight_eq_div_pow]
  omega

/-- The address field of a slot put together from its parts. -/
@[simp] theorem addrField_mkSlot (o : Opcode) (f : Addr) : addrField (mkSlot o f) = f := by
  apply BitVec.eq_of_toNat_eq
  have := f.isLt
  have := o.isLt
  simp only [mkSlot, addrField, BitVec.extractLsb'_toNat, BitVec.toNat_append, Nat.shiftRight_zero]
  rw [← Nat.shiftLeft_add_eq_or_of_lt (by omega), Nat.shiftLeft_eq]
  omega

/-- Encoding an instruction puts its opcode and its address bits, and nothing else, into its slot (30_encoding.md R82). -/
def SlotFields.Statement (i : Instr) : Prop :=
  ∀ t : OpcodeTable, opcodeField (encodeSlot t i) = i.opcode t ∧ addrField (encodeSlot t i) = i.addrBits

theorem SlotFields.ofInstr (i : Instr) : SlotFields.Statement i := fun t =>
  ⟨opcodeField_mkSlot (i.opcode t) i.addrBits, addrField_mkSlot (i.opcode t) i.addrBits⟩

theorem SlotFields.halt : SlotFields.Statement .halt := SlotFields.ofInstr _
theorem SlotFields.loadNeg (x : Addr) : SlotFields.Statement (.loadNeg x) := SlotFields.ofInstr _
theorem SlotFields.add (x : Addr) : SlotFields.Statement (.add x) := SlotFields.ofInstr _
theorem SlotFields.sub (x : Addr) : SlotFields.Statement (.sub x) := SlotFields.ofInstr _
theorem SlotFields.loadMqMem (x : Addr) : SlotFields.Statement (.loadMqMem x) := SlotFields.ofInstr _
theorem SlotFields.loadMq : SlotFields.Statement .loadMq := SlotFields.ofInstr _
theorem SlotFields.mul (x : Addr) : SlotFields.Statement (.mul x) := SlotFields.ofInstr _
theorem SlotFields.div (x : Addr) : SlotFields.Statement (.div x) := SlotFields.ofInstr _
theorem SlotFields.jumpPlus (x : Addr) : SlotFields.Statement (.jumpPlus x) := SlotFields.ofInstr _
theorem SlotFields.disc (i j k : DiscField) : SlotFields.Statement (.disc i j k) := SlotFields.ofInstr _
theorem SlotFields.sqrt (x : Addr) : SlotFields.Statement (.sqrt x) := SlotFields.ofInstr _
theorem SlotFields.stor (x : Addr) : SlotFields.Statement (.stor x) := SlotFields.ofInstr _

end Sys2Proof.Laws
end

