-- ==== Sys2Proof/Tests/Slice0.lean ====
section
/-! SUPPORT. Tests of the model against the vectors of 95_test_vectors.md and hand calculation from the rules, and, for every statement with hypotheses, a witness that meets them. Expected results are the spec's, never the model's own answers. -/

namespace Sys2Proof.Tests

open Sys2Proof Sys2Proof.Machine

-- The tests are checked one after the other: side by side they would start more threads than the checker's memory allows.
set_option Elab.async false

/-! ## Helpers -/

/-- The default instance, running at 500, with the given cells and `w` at 500 (V-T to V-C: "unless a row says otherwise
a single-word vector starts from ..."). -/
def at500 (w : Word) (cells : Memory) (ac mq : Number) : State :=
  { State.reset with
    pc := 500#12
    ac := ac
    mq := mq
    mem := Memory.write cells 500 (.word w)
    status := .running }

/-- A field of the state a step answers; none where it answers no state. -/
def after {α : Type} (o : Host.Outcome State Fault Refusal) (f : State → α) : Option α :=
  match o with
  | .next t => some (f t)
  | .fault _ => none
  | .refused _ => none

/-- `WORD` at 500 executed once: the fields looked at. -/
def run1 {α : Type} (w : Word) (cells : Memory) (ac mq : Number) (f : State → α) : Option α :=
  after (step (at500 w cells ac mq)) f

/-! ## Well-formedness: one ill-formed term for each check -/

theorem test_wf_default : Config.default.WF ∧ OpcodeTable.default.WF := by decide +kernel

theorem test_wf_refuses_halt_not_zero : ¬ OpcodeTable.WF { OpcodeTable.default with halt := 0b01000000#8 } := by decide

theorem test_wf_refuses_equal_opcodes : ¬ OpcodeTable.WF { OpcodeTable.default with sqrt := 0b00000101#8 } := by decide

theorem test_wf_refuses_small_memory : ¬ Config.WF { Config.default with memSize := 510 } := by decide +kernel

theorem test_wf_refuses_large_memory : ¬ Config.WF { Config.default with memSize := 4097 } := by decide +kernel

theorem test_wf_refuses_equal_sentinels : ¬ Config.WF { Config.default with noRootsPc := 510#12 } := by decide +kernel

theorem test_wf_refuses_zero_eps : ¬ Config.WF { Config.default with sqrtEps := 0 } := by decide +kernel

theorem test_wf_refuses_bad_table : ¬ Config.WF { Config.default with opc := { OpcodeTable.default with halt := 1#8 } } := by
  decide +kernel

theorem test_wf_bounds_of_a_12_bit_operand :
    ([SrcInstr.jumpPlus, .loadMqMem, .loadNeg, .mem .stor].all fun i => (i 4095).wf && !(i 4096).wf) = true := by decide

theorem test_wf_bounds_of_a_disc_operand :
    (SrcInstr.disc 15 15 15).wf = true ∧ (SrcInstr.disc 16 0 0).wf = false ∧ (SrcInstr.disc 0 16 0).wf = false ∧
    (SrcInstr.disc 0 0 16).wf = false := by decide

theorem test_wf_of_lines :
    (SrcLine.single (.loadNeg 4096)).wf = false ∧ (SrcLine.composite (.loadNeg 4096) .loadMq).wf = false ∧
    (SrcLine.composite (.mem .mul 0) (.mem .add 4096)).wf = false ∧
    (SrcLine.composite (.mem .mul 0) .loadMq).wf = true := by decide

/-! ## Decoding: every constructor, from bits written out by R82 and R84 (V-E1, V-D) -/

theorem test_decode_halt : decodeSlot .default 0b00000000000000000000#20 = .instr .halt := by decide

theorem test_decode_loadNeg : decodeSlot .default 0b00000010000000000001#20 = .instr (.loadNeg 1#12) := by decide

theorem test_decode_add : decodeSlot .default 0b00000101000000000111#20 = .instr (.add 7#12) := by decide

theorem test_decode_sub : decodeSlot .default 0b00000110000000000001#20 = .instr (.sub 1#12) := by decide

theorem test_decode_loadMqMem : decodeSlot .default 0b00001001000000000110#20 = .instr (.loadMqMem 6#12) := by decide

theorem test_decode_loadMq : decodeSlot .default 0b00001010000000000000#20 = .instr .loadMq := by decide

theorem test_decode_mul : decodeSlot .default 0b00001011100000000000#20 = .instr (.mul 2048#12) := by decide

theorem test_decode_div : decodeSlot .default 0b00001100000000000011#20 = .instr (.div 3#12) := by decide

theorem test_decode_jumpPlus : decodeSlot .default 0b00001111000111110100#20 = .instr (.jumpPlus 500#12) := by decide

/-- The three fields of V-D `16FA3`, 15, 10, 3, in this order. -/
theorem test_decode_disc : decodeSlot .default 0b00010110111110100011#20 = .instr (.disc 15#4 10#4 3#4) := by decide

theorem test_decode_sqrt : decodeSlot .default 0b00010111000000000100#20 = .instr (.sqrt 4#12) := by decide

theorem test_decode_stor : decodeSlot .default 0b00100001111111111111#20 = .instr (.stor 4095#12) := by decide

/-- V-D `01005`, `FF000`. -/
theorem test_decode_illegal : decodeSlot .default 0x01005#20 = .illegal 0x01#8 ∧
    decodeSlot .default 0xFF000#20 = .illegal 0xFF#8 := by decide

/-- V-D `0A123`, `00FFF`: the address bits of format N are ignored. -/
theorem test_decode_ignores_format_n_bits : decodeSlot .default 0x0A123#20 = .instr .loadMq ∧
    decodeSlot .default 0x00FFF#20 = .instr .halt := by decide

/-- The left slot is bits 39:20 (R81), in the word `0200105007` of V-E2. -/
theorem test_slots_of_a_word : leftSlot 0x0200105007#40 = 0x02001#20 ∧ rightSlot 0x0200105007#40 = 0x05007#20 := by decide

/-- R127: a word as text, the most significant bit first. -/
theorem test_word_text : String.ofList (bitText 0x0500700000#40) = "0000010100000000011100000000000000000000" := by decide +kernel

theorem test_encodePair : encodePair .default (.loadNeg 1#12) (.add 7#12) = 0x0200105007#40 := by decide

/-! ## The host's two questions -/

theorem test_decodeTableWord : decodeTableWord 20 0x0500A = some (.add 10#12) ∧ decodeTableWord 20 0 = some .halt ∧
    decodeTableWord 20 0x16FA3 = some (.disc 15#4 10#4 3#4) ∧ decodeTableWord 20 0x01005 = none ∧
    decodeTableWord 20 0x100000 = none := by decide

/-- LOAD MQ as the first instruction: fetched at 0, where Reset leaves PC, and executed. -/
theorem test_withFetchWord_runs : after (step (State.reset.withFetchWord 20 0x0A000)) (fun t => (t.pc, t.cyc, t.status)) =
    some (1#12, 1, .running) := by decide +kernel

/-- At a sentinel PC the word is placed at START_PC, since no fetch happens at a sentinel. -/
theorem test_withFetchWord_avoids_sentinels :
    after (step ({ State.reset with pc := 510#12 }.withFetchWord 20 0x0A000)) (fun t => (t.pc, t.status)) =
      some (497#12, .running) := by decide +kernel

/-- The operand cell of a freshly placed instruction is uninitialised: the instruction runs and faults (V-T10). -/
theorem test_withFetchWord_operand :
    after (step (State.reset.withFetchWord 20 0x05007)) (fun t => t.status) =
      some (.faulted (.uninitialisedRead 7#12) .left) := by decide +kernel

/-! ## The Encoder (V-E) -/

/-- V-E1. -/
theorem test_encode_every_signature :
    encodeText .default ["HALT", "LOAD -M(1)", "ADD M(7)", "SUB M(1)", "LOAD MQ,M(6)", "LOAD MQ", "MUL M(0)", "DIV M(3)",
      "JUMP+ M(500,0:19)", "DISC M(0),M(1),M(2)", "SQRT M(4)", "STOR M(4)", "EXIT"] =
    .ok [0x0000000000#40, 0x0200100000#40, 0x0500700000#40, 0x0600100000#40, 0x0900600000#40, 0x0A00000000#40,
      0x0B00000000#40, 0x0C00300000#40, 0x0F1F400000#40, 0x1601200000#40, 0x1700400000#40, 0x2100400000#40] := by
  decide +kernel

/-- V-E2. -/
theorem test_encode_composites_and_limits :
    encodeText .default ["LOAD -M(1) ADD M(7)", "LOAD -M(1) DIV M(0)", "MUL M(0) LOAD MQ", "STOR M(4) MUL M(0)",
      "STOR M(3) SQRT M(4)", "SUB M(8) STOR M(9)", "ADD M(4095)", "STOR M(999)", "DISC M(15),M(15),M(15)", "ADD M(007)",
      "  ADD    M(7)  ", "EXIT"] =
    .ok [0x0200105007#40, 0x020010C000#40, 0x0B0000A000#40, 0x210040B000#40, 0x2100317004#40, 0x0600821009#40,
      0x05FFF00000#40, 0x213E700000#40, 0x16FFF00000#40, 0x0500700000#40, 0x0500700000#40] := by
  decide +kernel

/-- V-E3, `operand_range`, and R123 on the other forms of line. -/
theorem test_encode_operand_range :
    (["ADD M(4096)", "DISC M(16),M(0),M(0)", "JUMP+ M(4096,0:19)", "LOAD MQ,M(4096)", "LOAD -M(4096)",
      "LOAD -M(1) ADD M(4096)", "MUL M(4096) LOAD MQ", "STOR M(4096) SQRT M(4)"].all fun l =>
      encodeLine .default l.toList = .error .operandRange) = true := by decide +kernel

/-- V-E3, `unknown_signature`. -/
theorem test_encode_unknown_signature :
    (["LOAD M(5)", "JUMP+ M(500,20:39)", "JUMP M(500,0:19)", "add M(1)", "ADD M( 7)", "ADD M(-1)", "DIV M(3) LOAD MQ",
      "STOR M(1) JUMP+ M(500,0:19)", "LOAD MQ,M(6) STOR M(1)", "LOAD MQ M(3)", ""].all fun l =>
      encodeLine .default l.toList = .error .unknownSignature) = true := by decide +kernel

/-- V-E3, no `EXIT` line; the line number is a free value (log 19), so only the cause is looked at. -/
theorem test_encode_missing_exit :
    (match encodeText .default ["ADD M(1)"] with
      | .error e => e.cause = .missingExit
      | .ok _ => False) := rfl

/-- V-E4. -/
theorem test_encode_stops_at_exit :
    encodeText .default ["LOAD MQ,M(6)", "LOAD MQ", "EXIT", "ADD M(1)"] = .ok [0x0900600000#40, 0x0A00000000#40] ∧
    encodeText .default ["EXIT"] = .ok [] := by decide +kernel

/-- R125: the 1-based number of the line. -/
theorem test_encode_line_number :
    encodeText .default ["HALT", "LOAD M(5)", "EXIT"] = .error ⟨.unknownSignature, 2⟩ := by decide +kernel

/-! ## Data transfer (V-T) -/

/-- V-T1. -/
theorem test_loadNeg : run1 0x0200100000#40 [(1, .num (-3))] 9 2 (fun t => (t.ac, t.mq, t.mbr)) =
    some (3, 2, .num (-3)) := by decide +kernel

/-- V-T11: the operand is a word. -/
theorem test_loadNeg_of_a_word : run1 0x0200100000#40 [(1, .word 0x0500700000#40)] 9 2 (fun t => (t.status, t.ac, t.mbr)) =
    some (.faulted (.cellKindError .operand 1#12) .left, 9, .word 0x0200100000#40) := by decide +kernel

/-- V-T3. -/
theorem test_loadMqMem : run1 0x0900600000#40 [(6, .num 2)] (-4) 0 (fun t => (t.ac, t.mq)) = some (-4, 2) := by
  decide +kernel

/-- V-T5: address bits of LOAD MQ and HALT name no cell and are not checked. -/
theorem test_loadMq : run1 0x0A12300FFF#40 [] 1 (7/2) (fun t => (t.ac, t.mq, t.mar, t.mbr)) =
    some (7/2, 7/2, 4095#12, .word 0x0A12300FFF#40) := by decide +kernel

/-- V-T6: the cell was uninitialised. -/
theorem test_stor : run1 0x2100400000#40 [] 1 0 (fun t => (t.mem.read 4, t.ac, t.mbr)) =
    some (.num 1, 1, .num 1) := by decide +kernel

/-- V-T8: the first address past memory. -/
theorem test_stor_outside : run1 0x213E800000#40 [] 5 0 (fun t => (t.status, t.pc, t.mar, t.mem)) =
    some (.faulted (.addressError 1000#12) .left, 500#12, 1000#12, [(500, .word 0x213E800000#40)]) := by decide +kernel

/-! ## Arithmetic (V-A) -/

/-- V-A2: no overflow. -/
theorem test_add : run1 0x0500700000#40 [(7, .num (2 ^ 40))] (2 ^ 40) 0 (fun t => t.ac) = some (2 ^ 41) := by decide +kernel

/-- V-A3, and V-A4: `1/2 - 1/2 = 0`. -/
theorem test_sub : run1 0x0600100000#40 [(1, .num (-3))] 1 0 (fun t => t.ac) = some 4 ∧
    run1 0x0600100000#40 [(1, .num (1/2))] (1/2) 0 (fun t => t.ac) = some 0 := by decide +kernel

/-- V-A5. -/
theorem test_mul : run1 0x0B00000000#40 [(0, .num 5)] 9 2 (fun t => (t.ac, t.mq)) = some (5, 10) := by decide +kernel

/-- V-A7: MUL then LOAD MQ in one word. -/
theorem test_mul_then_loadMq : run1 0x0B0000A000#40 [(0, .num 5)] 9 2 (fun t => (t.ac, t.mq, t.ir)) =
    some (10, 10, 0x0A#8) := by decide +kernel

/-- V-A8 to V-A13, the sign table of R184. -/
theorem test_div :
    ([(7, 2, 7/2, 1), (-7, 2, -7/2, 1), (7, -2, -7/2, -1), (-7, -2, 7/2, -1), (7/2, 2, 7/4, 3/2), (1, 3, 1/3, 1),
      (7, 1/2, 14, 0), (0, -5, 0, 0)].all fun (r : Number × Number × Number × Number) =>
      run1 0x0C00300000#40 [(3, .num r.2.1)] r.1 0 (fun t => (t.mq, t.ac)) = some (r.2.2.1, r.2.2.2)) = true := by
  decide +kernel

/-- V-A14. -/
theorem test_div_by_zero : run1 0x0C00300000#40 [(3, .num 0)] 7 4 (fun t => (t.status, t.ac, t.mq, t.pc, t.cyc)) =
    some (.faulted (.arithmeticError .divZero 3#12) .left, 7, 4, 500#12, 0) := by decide +kernel

/-! ## Extensions (V-X) -/

/-- V-X1, V-X2, V-X4. -/
theorem test_disc :
    run1 0x1601200000#40 [(0, .num 1), (1, .num 5), (2, .num 6)] 0 0 (fun t => (t.ac, t.mbr)) = some (1, .num 6) ∧
    run1 0x1601200000#40 [(0, .num 1), (1, .num 0), (2, .num 1)] 0 0 (fun t => t.ac) = some (-4) ∧
    run1 0x1601200000#40 [(0, .num 0), (1, .num 3), (2, .num 7)] 0 0 (fun t => t.ac) = some 9 := by decide +kernel

/-- V-X6: the reads go i, j, k. -/
theorem test_disc_first_fault : run1 0x1601200000#40 [(0, .num 1)] 6 0 (fun t => (t.status, t.ac)) =
    some (.faulted (.uninitialisedRead 1#12) .left, 6) := by decide +kernel

/-- V-X8, V-X9, V-X10, and R191 (b): `√(1/4) = 1/2`. -/
theorem test_sqrt_exact :
    ([(1, 1), (0, 0), (9/4, 3/2), (1/4, 1/2)].all fun (r : Number × Number) =>
      run1 0x1700400000#40 [(4, .num r.1)] 6 0 (fun t => t.ac) = some r.2) = true := by decide +kernel

/-- V-X12. -/
theorem test_sqrt_negative : run1 0x1700400000#40 [(4, .num (-4))] 6 0 (fun t => (t.status, t.ac)) =
    some (.faulted (.arithmeticError .sqrtNegative 4#12) .left, 6) := by decide +kernel

/-! ## Control and the cycle (V-C) -/

/-- V-C1, V-C2, V-C3, V-C4: the jump at 498 to 500, for four values of AC. -/
theorem test_jumpPlus :
    ([(5, 500#12), (0, 500#12), (-1, 499#12), (-1/1000, 499#12)].all fun (r : Number × Addr) =>
      after (step { at500 0#40 [(498, .word 0x0F1F400000#40)] r.1 0 with pc := 498#12 }) (fun t => t.pc) = some r.2) =
      true := by decide +kernel

/-- V-C5: a jump to 0. -/
theorem test_jumpPlus_to_zero : run1 0x0F00000000#40 [(0, .num 1)] 0 0 (fun t => (t.pc, t.cyc, t.status)) =
    some (0#12, 1, .running) := by decide +kernel

/-- V-C7, V-C9: the right slot after a taken jump. -/
theorem test_jump_shadow :
    run1 0x0F1F805001#40 [(1, .num 3)] 2 0 (fun t => (t.ac, t.pc)) = some (5, 504#12) ∧
    run1 0x0F1F80F1FB#40 [] 0 0 (fun t => t.pc) = some 507#12 := by decide +kernel

/-- V-C13: two HALT slots that are not the HALT word. -/
theorem test_halt_in_a_slot : run1 0x0012300FFF#40 [] 3 4 (fun t => (t.pc, t.cyc, t.mar, t.ac, t.mq, t.status)) =
    some (501#12, 1, 4095#12, 3, 4, .running) := by decide +kernel

/-- V-C12. -/
theorem test_halt_word : run1 0#40 [] 3 4 (fun t => (t.status, t.pc, t.mar, t.cyc)) =
    some (.halted .haltWord, 500#12, 500#12, 0) := by decide +kernel

/-- V-C10, V-C11. -/
theorem test_sentinels :
    after (step { at500 0#40 [] 0 0 with pc := 510#12, cyc := 7 }) (fun t => (t.status, t.pc, t.cyc, t.mar)) =
      some (.halted .endSentinel, 510#12, 7, 0#12) ∧
    after (step { at500 0#40 [(499, .word 0#40)] 0 0 with pc := 499#12 }) (fun t => t.status) =
      some (.halted .noRealRoots) := by decide +kernel

/-- V-C14, V-C16, and the fetch of a number. -/
theorem test_fetch_faults :
    after (step { at500 0#40 [] 0 0 with mem := [] }) (fun t => (t.status, t.mar)) =
      some (.faulted (.uninitialisedRead 500#12) .fetch, 0#12) ∧
    after (step { at500 0#40 [] 0 0 with pc := 1000#12 }) (fun t => t.status) =
      some (.faulted (.addressError 1000#12) .fetch) ∧
    after (step { at500 0#40 [] 0 0 with mem := [(500, .num 0)] }) (fun t => t.status) =
      some (.faulted (.cellKindError .fetch 500#12) .fetch) := by decide +kernel

/-- V-C17. -/
theorem test_illegal_left : run1 0x0100500000#40 [] 3 0 (fun t => (t.status, t.ir, t.mar, t.pc, t.cyc)) =
    some (.faulted (.illegalInstruction 0x01#8) .left, 0x01#8, 5#12, 500#12, 0) := by decide +kernel

/-- V-C18: the left half keeps its effect. -/
theorem test_illegal_right : run1 0x21004FF000#40 [] 3 0 (fun t => (t.status, t.mem.read 4, t.pc)) =
    some (.faulted (.illegalInstruction 0xFF#8) .right, .num 3, 500#12) := by decide +kernel

/-- V-C19, V-C20: at the ceiling, a jump to itself and a HALT word. -/
theorem test_ceiling :
    after (step { at500 0x0F1F400000#40 [] 0 0 with cyc := 10000 }) (fun t => (t.status, t.cyc, t.mar)) =
      some (.faulted (.nonTermination 500#12) .fetch, 10000, 500#12) ∧
    after (step { at500 0#40 [] 0 0 with cyc := 10000 }) (fun t => t.status) = some (.halted .haltWord) := by
  decide +kernel

/-- V-C21: PC wraps. -/
theorem test_pc_wraps :
    after (step { at500 0#40 [] 0 0 with
        pc := 4095#12, mem := [(4095, .word 0x0A00000000#40)], cfg := { Config.default with memSize := 4096 } })
      (fun t => (t.pc, t.cyc)) = some (0#12, 1) := by decide +kernel

/-- P3: a fault in the right half. -/
theorem test_fault_in_the_right_half :
    run1 0x020000C001#40 [(0, .num 7), (1, .num 0)] 0 0 (fun t => (t.status, t.ac, t.mq)) =
      some (.faulted (.arithmeticError .divZero 1#12) .right, -7, 0) ∧
    run1 0x020000C001#40 [(0, .num 7), (1, .num 0)] 0 0 (fun t => (t.ir, t.mar, t.ibr, t.mbr)) =
      some (0x0C#8, 1#12, 0x0C001#20, .num 7) := by decide +kernel

/-- P4, word 502: the right slot is latched. -/
theorem test_latched_right_slot :
    after (step { at500 0#40 [(1, .num 10), (502, .word 0x211F605001#40)] 5 0 with pc := 502#12 })
      (fun t => (t.mem.read 502, t.ac, t.pc)) = some (.num 5, 15, 503#12) := by decide +kernel

/-- V-R2: eleven words at 990 do not fit; ten do. -/
theorem test_loadProgram :
    State.reset.loadProgram 990 (List.replicate 11 0#40) = .refused .loadOutsideMemory ∧
    after (State.reset.loadProgram 990 (List.replicate 10 1#40)) (fun t => t.mem.read 999) = some (.word 1#40) :=
  ⟨rfl, by decide +kernel⟩

/-- V-R3: Start after a halt keeps AC and PC. -/
theorem test_start : after { State.reset with status := .halted .haltWord, ac := -1, cyc := 28, pc := 507#12 }.start
      (fun t => (t.status, t.cyc, t.ac, t.pc)) = some (.running, 0, -1, 507#12) := by decide +kernel

/-- R252: the boot leaves the program, the coefficients and the constants in place. -/
theorem test_boot : after (State.reset.bootQuadratic [0x1601200000#40] 1 (-3) 2) (fun t => (t.pc, t.status, t.mem)) =
    some (496#12, .running, [(0, .num 1), (1, .num (-3)), (2, .num 2), (5, .num 4), (6, .num 2),
      (496, .word 0x1601200000#40)]) := by decide +kernel

/-- R250. -/
theorem test_results :
    { State.reset with status := .halted .endSentinel, mem := [(8, .num 2), (9, .num 1)] }.readResults =
      .results (.num 2) (.num 1) ∧
    { State.reset with status := .halted .noRealRoots }.readResults = .noRealRoots := by decide +kernel

/-- Writing what an unlisted address reads as removes the entry (log 8). -/
theorem test_memory_canonical : Memory.write [(1, .num 3), (5, .num 4)] 1 .uninit = [(5, .num 4)] ∧
    Memory.wf (Memory.write [(1, .num 3), (5, .num 4)] 3 (.num 0)) = true := by decide +kernel

/-! ## Witnesses: concrete states and operands that meet the hypotheses of each statement, clause by clause -/

theorem next_of_after {α : Type} {o : Host.Outcome State Fault Refusal} {f : State → α} {x : α}
    (h : after o f = some x) : ∃ t, o = .next t ∧ f t = x := by
  cases o with
  | next t => exact ⟨t, rfl, by simpa [after] using h⟩
  | fault _ => simp [after] at h
  | refused _ => simp [after] at h

/-- The reset state, running, with one cell. -/
def holding (a : Nat) (c : Cell) : State := { State.reset with mem := [(a, c)], status := .running }

/-- The hypotheses of the four cases of an operand read, at the last address of memory and the first past it, and a
well-formed table. -/
def OperandCases : Prop :=
  ((999#12).toNat < (holding 999 (.num 5)).cfg.memSize ∧ (holding 999 (.num 5)).mem.read (999#12).toNat = .num 5) ∧
  (holding 999 (.num 5)).cfg.memSize ≤ (1000#12).toNat ∧
  ((999#12).toNat < State.reset.cfg.memSize ∧ State.reset.mem.read (999#12).toNat = .uninit) ∧
  ((999#12).toNat < (holding 999 (.word 1#40)).cfg.memSize ∧
    (holding 999 (.word 1#40)).mem.read (999#12).toNat = .word 1#40) ∧
  OpcodeTable.default.WF

theorem operand_cases : OperandCases := by unfold OperandCases; decide +kernel

theorem witness_LoadNegNegatesTheOperand : OperandCases := operand_cases

theorem witness_LoadMqReadsMemory : OperandCases := operand_cases

theorem witness_AddAddsTheOperand : OperandCases := operand_cases

theorem witness_SubSubtractsTheOperand : OperandCases := operand_cases

theorem witness_MulLoadsAcThenMultiplies : OperandCases := operand_cases

theorem witness_LoadMqCopiesMqToAc : OpcodeTable.default.WF := by decide

theorem witness_StorWritesOneCell : (999#12).toNat < State.reset.cfg.memSize ∧
    State.reset.cfg.memSize ≤ (1000#12).toNat := by decide +kernel

/-- A non-zero and a zero divisor; the fault cases are those of `operand_cases`. -/
theorem witness_DivQuotientAndFlooredRemainder :
    ((999#12).toNat < (holding 999 (.num 5)).cfg.memSize ∧ (holding 999 (.num 5)).mem.read (999#12).toNat = .num 5 ∧
      (5 : Number) ≠ 0) ∧
    ((999#12).toNat < (holding 999 (.num 0)).cfg.memSize ∧ (holding 999 (.num 0)).mem.read (999#12).toNat = .num 0) := by
  decide +kernel

theorem witness_DivResultsObeyTheDivisionLaws :
    (∃ t, exec (.div 999#12) { holding 999 (.num 2) with ac := -7 } = .next t ∧ t.mq = -7/2) ∧
    (∃ t, exec (.div 999#12) { holding 999 (.num (-2)) with ac := 7 } = .next t ∧ t.mq = -7/2) ∧
    (holding 999 (.num 2)).mem.read (999#12).toNat = .num 2 ∧
    (holding 999 (.num (-2))).mem.read (999#12).toNat = .num (-2) ∧
    (999#12).toNat < State.reset.cfg.memSize ∧ (2 : Number) ≠ 0 ∧ (-2 : Number) ≠ 0 :=
  ⟨next_of_after (by decide +kernel), next_of_after (by decide +kernel), by decide +kernel⟩

/-- Cells 0, 10 and 15 as `a`, `b`, `c`: all numbers; the first uninitialised; the second a word; the third
uninitialised. -/
theorem witness_DiscComputesTheDiscriminant :
    16 ≤ State.reset.cfg.memSize ∧
    (let m : Memory := [(0, .num 1), (10, .num 5), (15, .num 6)];
      m.read (0#4).toNat = .num 1 ∧ m.read (10#4).toNat = .num 5 ∧ m.read (15#4).toNat = .num 6) ∧
    cellFault (Memory.read [] (0#4).toNat) 0#12 = some (.uninitialisedRead 0#12) ∧
    (let m : Memory := [(0, .num 1), (10, .word 1#40)];
      m.read (0#4).toNat = .num 1 ∧ cellFault (m.read (10#4).toNat) 10#12 = some (.cellKindError .operand 10#12)) ∧
    (let m : Memory := [(0, .num 1), (10, .num 5)];
      m.read (0#4).toNat = .num 1 ∧ m.read (10#4).toNat = .num 5 ∧
      cellFault (m.read (15#4).toNat) 15#12 = some (.uninitialisedRead 15#12)) := by decide +kernel

/-- A square, zero, a non-square, a negative operand; the fault cases are those of `operand_cases`. -/
theorem witness_SqrtIsExactOrWithinTheBound :
    0 < State.reset.cfg.sqrtEps ∧
    (∀ v ∈ [(9/4 : Number), 0, 2], (holding 999 (.num v)).mem.read (999#12).toNat = .num v ∧ 0 ≤ v) ∧
    ((0 : Number) ≤ 3/2 ∧ (3/2 : Number) * (3/2) = 9/4) ∧
    ((holding 999 (.num (-1))).mem.read (999#12).toNat = .num (-1) ∧ (-1 : Number) < 0) := by decide +kernel

/-- The operand 2, whose root is not rational, in two different cells of two different states. -/
theorem witness_SqrtDependsOnTheOperandOnly :
    (∃ t, exec (.sqrt 4#12) (holding 4 (.num 2)) = .next t ∧ t.status = .running) ∧
    (∃ t, exec (.sqrt 999#12) { holding 999 (.num 2) with ac := 8 } = .next t ∧ t.status = .running) ∧
    (holding 4 (.num 2)).mem.read (4#12).toNat = .num 2 ∧ (holding 999 (.num 2)).mem.read (999#12).toNat = .num 2 :=
  ⟨next_of_after (by decide +kernel), next_of_after (by decide +kernel), by decide +kernel⟩

theorem witness_JumpPlusTestsTheSignOfAc : 0 ≤ State.reset.ac ∧ { State.reset with ac := -1/1000 }.ac < 0 := by
  decide +kernel

theorem witness_HaltInASlotDoesNothing : OpcodeTable.default.WF := by decide

theorem witness_RegisterOnlyInstructionsFrame :
    (∃ t, exec .loadMq (holding 1 (.num 1)) = .next t) ∧ (∃ t, exec .halt (holding 1 (.num 1)) = .next t) ∧
    ∃ t, exec (.jumpPlus 0#12) (holding 1 (.num 1)) = .next t :=
  ⟨⟨_, rfl⟩, ⟨_, rfl⟩, ⟨_, rfl⟩⟩

/-- Each of the eight completing, and one faulting. -/
theorem witness_MemoryReadersFrame :
    (∀ i ∈ [Instr.loadNeg 1#12, .loadMqMem 1#12, .add 1#12, .sub 1#12, .mul 1#12, .div 1#12, .sqrt 1#12, .disc 1#4 1#4 1#4],
      readsMemory i = true ∧ after (exec i (holding 1 (.num 1))) (fun t => t.status) = some .running) ∧
    after (exec (.add 2#12) (holding 1 (.num 1))) (fun t => t.status) =
      some (.faulted (.uninitialisedRead 2#12) .fetch) := by decide +kernel

theorem witness_AFaultingInstructionWritesOnlyStatus :
    (∃ t, exec (.add 1#12) (holding 1 (.num 1)) = .next t ∧ t.status = .running) ∧
    ∃ t, exec (.add 2#12) (holding 1 (.num 1)) = .next t ∧ t.status = .faulted (.uninitialisedRead 2#12) .fetch :=
  ⟨next_of_after (by decide +kernel), next_of_after (by decide +kernel)⟩

theorem witness_EachInstructionRaisesOnlyItsFaults :
    (holding 1 (.num 0)).cfg.WF ∧ (holding 1 (.num 0)).status = .running ∧
    ∀ p ∈ [(Instr.stor 1000#12, EngineFault.addressError 1000#12), (.div 1#12, .arithmeticError .divZero 1#12),
        (.disc 1#4 2#4 3#4, .uninitialisedRead 2#12)],
      after (exec p.1 { holding 1 (.num 0) with phase := .executeRight }) (fun t => t.status) =
        some (.faulted p.2 .right) := by decide +kernel

theorem witness_EveryInstructionAnswersANextState : (holding 1 (.num 0)).status = .running := rfl

/-- ADD M(7) / STOR M(4), with the operand there (both halves complete); SUB M(1) / DIV M(7) and ADD M(7) / DIV M(1),
with cell 1 uninitialised (the left half faults; the right half faults). -/
theorem witness_StepRunsTheDecodedPair :
    (ReadyToExecute (at500 0x0500721004#40 [(7, .num 1)] 3 0) 0x0500721004#40 ∧
      decodeSlot .default ((0x0500721004#40).extractLsb' 20 20) = .instr (.add 7#12) ∧
      decodeSlot .default ((0x0500721004#40).extractLsb' 0 20) = .instr (.stor 4#12) ∧
      run1 0x0500721004#40 [(7, .num 1)] 3 0 (fun t => t.status) = some .running) ∧
    (ReadyToExecute (at500 0x060010C007#40 [(7, .num 1)] 3 0) 0x060010C007#40 ∧
      run1 0x060010C007#40 [(7, .num 1)] 3 0 (fun t => t.status) = some (.faulted (.uninitialisedRead 1#12) .left)) ∧
    (ReadyToExecute (at500 0x050070C001#40 [(7, .num 1)] 3 0) 0x050070C001#40 ∧
      run1 0x050070C001#40 [(7, .num 1)] 3 0 (fun t => t.status) =
        some (.faulted (.uninitialisedRead 1#12) .right)) := by
  unfold ReadyToExecute; decide +kernel

theorem witness_IllegalOpcodeFaultsInItsHalf :
    (ReadyToExecute (at500 0x0100500000#40 [] 3 0) 0x0100500000#40 ∧
      decodeSlot .default ((0x0100500000#40).extractLsb' 20 20) = .illegal 1#8) ∧
    (ReadyToExecute (at500 0x21004FF000#40 [] 3 0) 0x21004FF000#40 ∧
      decodeSlot .default ((0x21004FF000#40).extractLsb' 20 20) = .instr (.stor 4#12) ∧
      decodeSlot .default ((0x21004FF000#40).extractLsb' 0 20) = .illegal 0xFF#8 ∧
      after (exec (.stor 4#12) (afterDecodeLeft (at500 0x21004FF000#40 [] 3 0) 0x21004FF000#40)) (fun t => t.status) =
        some .running) := by
  unfold ReadyToExecute; decide +kernel

/-- The reset state, running, with PC at `p`. -/
def runningAt (p : Addr) : State := { State.reset with pc := p, status := .running }

theorem witness_SentinelsHaltBeforeTheFetch :
    (runningAt 510#12).pc = (runningAt 510#12).cfg.haltPc ∧ (runningAt 499#12).pc ≠ (runningAt 499#12).cfg.haltPc ∧
    (runningAt 499#12).pc = (runningAt 499#12).cfg.noRootsPc := by decide +kernel

/-- PC past memory; at its last cell, uninitialised, a number, a word. -/
theorem witness_FetchReadsTheWordAtPc :
    (∀ p ∈ [999#12, 1000#12], (runningAt p).status = .running ∧ p ≠ State.reset.cfg.haltPc ∧
      p ≠ State.reset.cfg.noRootsPc) ∧
    (runningAt 1000#12).cfg.memSize ≤ (1000#12).toNat ∧ (999#12).toNat < (runningAt 999#12).cfg.memSize ∧
    (runningAt 999#12).mem.read (999#12).toNat = .uninit ∧
    Memory.read [(999, .num 0)] (999#12).toNat = .num 0 ∧
    Memory.read [(999, .word 0#40)] (999#12).toNat = .word 0#40 := by decide +kernel

theorem witness_HaltWordStopsTheEngine : (at500 0#40 [] 0 0).status = .running ∧
    (at500 0#40 [] 0 0).pc ≠ (at500 0#40 [] 0 0).cfg.haltPc ∧ (at500 0#40 [] 0 0).pc ≠ (at500 0#40 [] 0 0).cfg.noRootsPc ∧
    (at500 0#40 [] 0 0).pc.toNat < (at500 0#40 [] 0 0).cfg.memSize ∧
    (at500 0#40 [] 0 0).mem.read (at500 0#40 [] 0 0).pc.toNat = .word 0#40 := by decide +kernel

/-- Exactly at the ceiling. -/
theorem witness_CycleCeilingFaults :
    let s := { at500 0x0A00000000#40 [] 0 0 with cyc := 10000 }
    s.status = .running ∧ s.pc ≠ s.cfg.haltPc ∧ s.pc ≠ s.cfg.noRootsPc ∧ s.pc.toNat < s.cfg.memSize ∧
    s.mem.read s.pc.toNat = .word 0x0A00000000#40 ∧ 0x0A00000000#40 ≠ 0#40 ∧ s.cfg.maxCycles ≤ s.cyc := by decide +kernel

theorem witness_OnlyRunningHasAStep :
    ∀ x ∈ [Status.idle, .halted .haltWord, .faulted (.addressError 1000#12) .fetch], x ≠ .running := by decide

/-- The HALT word; two zero opcodes with other bits; a zero right slot; a zero left slot. -/
theorem witness_ZeroSlotsAreNoOperations :
    ((at500 0#40 [] 0 0).mem.read (500#12).toNat = .word 0#40 ∧ (at500 0#40 [] 0 0).cfg.opc.WF) ∧
    (ReadyToExecute (at500 0x0012300FFF#40 [] 0 0) 0x0012300FFF#40 ∧
      (0x0012300FFF#40).extractLsb' 32 8 = 0#8 ∧ (0x0012300FFF#40).extractLsb' 12 8 = 0#8) ∧
    (ReadyToExecute (at500 0x0A00000000#40 [] 0 0) 0x0A00000000#40 ∧ (0x0A00000000#40).extractLsb' 0 20 = 0#20 ∧
      decodeSlot .default ((0x0A00000000#40).extractLsb' 20 20) = .instr .loadMq) ∧
    (ReadyToExecute (at500 0x000000A000#40 [] 0 0) 0x000000A000#40 ∧ (0x000000A000#40).extractLsb' 20 20 = 0#20 ∧
      decodeSlot .default ((0x000000A000#40).extractLsb' 0 20) = .instr .loadMq) := by
  unfold ReadyToExecute; decide +kernel

/-- A jump to 0, for AC zero and AC negative. -/
theorem witness_JumpPlusLandsOnItsTarget :
    OpcodeTable.default.WF ∧ 0x0F00000000#40 = OpcodeTable.default.jumpPlus ++ 0#12 ++ 0#20 ∧
    (∀ ac ∈ [(0 : Number), -1], ReadyToExecute (at500 0x0F00000000#40 [] ac 0) 0x0F00000000#40) ∧
    (0 : Number) ≤ 0 ∧ (-1 : Number) < 0 := by
  unfold ReadyToExecute; decide +kernel

theorem witness_TakenJumpDoesNotCancelTheRightSlot :
    let s := at500 0x0F1F805001#40 [(1, .num 3)] 0 0
    s.cfg.opc.WF ∧ ReadyToExecute s 0x0F1F805001#40 ∧
    0x0F1F805001#40 = s.cfg.opc.jumpPlus ++ 504#12 ++ s.cfg.opc.add ++ 1#12 ∧ 0 ≤ s.ac ∧
    (1#12).toNat < s.cfg.memSize ∧ s.mem.read (1#12).toNat = .num 3 := by
  unfold ReadyToExecute; decide +kernel

/-- P4's word, at 500. -/
theorem witness_RightSlotIsLatched :
    let s := at500 0x211F405001#40 [(1, .num 10)] 5 0
    s.cfg.opc.WF ∧ ReadyToExecute s 0x211F405001#40 ∧
    0x211F405001#40 = s.cfg.opc.stor ++ s.pc ++ s.cfg.opc.add ++ 1#12 ∧ 1#12 ≠ s.pc ∧
    (1#12).toNat < s.cfg.memSize ∧ s.mem.read (1#12).toNat = .num 10 := by
  unfold ReadyToExecute; decide +kernel

theorem witness_PhaseStepsMakeTheWordCycle : (at500 0x0500700000#40 [(7, .num 1)] 3 0).phase = .fetch := rfl

/-- A state that meets the invariant, in which STOR M(4) / ADD M(7) executes; what the step leaves is named where a
statement looks at it. -/
def storing : State := at500 0x2100405007#40 [(7, .num 1)] 3 0

theorem storing_steps : ∃ t, step storing = .next t ∧ (t.status, t.pc, t.mem.read 4) = (.running, 501#12, .num 3) :=
  next_of_after (by decide +kernel)

theorem witness_StepKeepsTheInvariant : storing.Inv ∧ ∃ t, step storing = .next t :=
  ⟨by decide +kernel, storing_steps.imp fun _ h => h.1⟩

/-- Each operation of the host answers a next state in the reset state, which meets the invariant. -/
theorem witness_HostOperationsKeepTheInvariant : State.reset.Inv ∧
    after (State.reset.loadCell 999 (.num 1)) (fun t => t.mem) = some [(999, .num 1)] ∧
    after (State.reset.loadProgram 999 [1#40]) (fun t => t.mem) = some [(999, .word 1#40)] ∧
    after (State.reset.setPc 496#12) (fun t => t.pc) = some 496#12 ∧
    after State.reset.start (fun t => t.status) = some .running := by decide +kernel

theorem witness_StepNeverWritesTheParameters : ∃ t, step storing = .next t := storing_steps.imp fun _ h => h.1

/-- After the step cell 500 still holds a word and cell 5 nothing. -/
theorem witness_ProgramsCannotMakeInstructions :
    ∃ t, step storing = .next t ∧ (t.mem.read 500, t.mem.read 5) = (.word 0x2100405007#40, .uninit) :=
  next_of_after (by decide +kernel)

theorem witness_OnlyStorChangesMemory : (∃ t, step storing = .next t ∧ t.mem.read 4 = .num 3) ∧
    storing.mem.read 4 = .uninit :=
  ⟨next_of_after (by decide +kernel), by decide +kernel⟩

theorem witness_PcMovesByAdvanceOrJumpOnly : ∃ t, step storing = .next t ∧ t.status = .running :=
  next_of_after (by decide +kernel)

theorem witness_CycCountsCompletedWordCycles : (∃ t, step storing = .next t ∧ t.status = .running) ∧
    ∃ t, step (runningAt 510#12) = .next t ∧ t.status = .halted .endSentinel :=
  ⟨next_of_after (by decide +kernel), next_of_after (by decide +kernel)⟩

theorem witness_EveryRunEnds : storing.status = .running := rfl

/-- Two states that differ in MAR, IR, IBR, MBR and the sequencing state. -/
theorem witness_ResultsIgnoreTheBookkeepingRegisters :
    SameButBookkeeping storing { storing with mar := 9#12, ir := 1#8, ibr := 1#20, mbr := .num 1, phase := .advance } ∧
    storing.status = .running := by
  unfold SameButBookkeeping; decide +kernel

theorem witness_IntegersStayIntegers : AllIntegers (holding 1 (.num 7)) ∧
    ∃ t, exec (.mul 1#12) (holding 1 (.num 7)) = .next t ∧ t.ac = 7 := by
  refine ⟨⟨rfl, rfl, fun a v h => ?_⟩, next_of_after (by decide +kernel)⟩
  simp only [holding, Memory.read] at h
  split at h
  · cases h; rfl
  · cases h

theorem witness_CanonicalMemoriesAreEqualData : Memory.wf [(1, .num 3), (5, .word 1#40)] = true ∧
    ∀ a, Memory.read [(1, .num 3), (5, .word 1#40)] a = Memory.read [(1, .num 3), (5, .word 1#40)] a :=
  ⟨by decide +kernel, fun _ => rfl⟩

theorem witness_DecodeGivesBackTheEncodedInstruction : OpcodeTable.default.WF := by decide

theorem witness_EncodeGivesBackTheDecodedSlot :
    decodeSlot .default 0x21FFF#20 = .instr (.stor 4095#12) ∧ Instr.stor 4095#12 ≠ .loadMq ∧ Instr.stor 4095#12 ≠ .halt := by
  decide

/-- A slot for each clause: the twelve opcodes and one outside the table. -/
theorem witness_DecodeFollowsTheOpcodeField : OpcodeTable.default.WF ∧
    [0x16FFF#20, 0x02FFF#20, 0x05FFF#20, 0x06FFF#20, 0x09FFF#20, 0x0BFFF#20, 0x0CFFF#20, 0x0FFFF#20, 0x17FFF#20, 0x21FFF#20,
        0x0AFFF#20, 0x00FFF#20].map (fun b => b.extractLsb' 12 8) =
      [OpcodeTable.default.disc, OpcodeTable.default.loadNeg, OpcodeTable.default.add, OpcodeTable.default.sub,
        OpcodeTable.default.loadMqMem, OpcodeTable.default.mul, OpcodeTable.default.div, OpcodeTable.default.jumpPlus,
        OpcodeTable.default.sqrt, OpcodeTable.default.stor, OpcodeTable.default.loadMq, OpcodeTable.default.halt] ∧
    (0x01FFF#20).extractLsb' 12 8 ∉ OpcodeTable.default.patterns := by decide

theorem witness_TheOther244OpcodesAreIllegal : OpcodeTable.default.WF ∧
    decodeSlot .default 0xFF000#20 = .illegal 0xFF#8 := by decide

/-- Decimal numerals at both ends of the two ranges, and past them. -/
theorem test_decimals : IsDec ['0'] 0 ∧ IsDec ['1', '5'] 15 ∧ IsDec ['1', '6'] 16 ∧ IsDec ['4', '0', '9', '5'] 4095 ∧
    IsDec ['4', '0', '9', '6'] 4096 ∧ IsDec ['0', '0', '7'] 7 := by
  simp [IsDec, Nat.ofDigits_cons]

theorem witness_JumpDiscAndLoadMqLinesEncode :
    IsDec ['4', '0', '9', '5'] 4095 ∧ 4095 ≤ 4095 ∧ IsDec ['1', '5'] 15 ∧ 15 ≤ 15 ∧
    (∀ c ∈ [',', '2', '0', ':', '3', '9', ')'], c ≠ ' ' ∧ c ≠ '\t') ∧ (','.isDigit = false) ∧
    [',', '2', '0', ':', '3', '9', ')'] ≠ [',', '0', ':', '1', '9', ')'] := by
  simp [IsDec, Nat.ofDigits_cons]

theorem witness_MemopAndCompositeLinesEncode :
    OpcodeTable.default.WF ∧ IsDec ['0'] 0 ∧ IsDec ['4', '0', '9', '5'] 4095 ∧ 4095 ≤ 4095 :=
  ⟨by decide, by simp [IsDec, Nat.ofDigits_cons]⟩

/-- Just past each field; and in a composite line the left operand alone, then the right one alone. -/
theorem witness_TooWideAnOperandIsRefused : (IsDec ['4', '0', '9', '6'] 4096 ∧ 4095 < 4096) ∧
    (IsDec ['1', '6'] 16 ∧ IsDec ['0'] 0 ∧ 15 < 16) ∧
    (IsDec ['4', '0', '9', '6'] 4096 ∧ IsDec ['4', '0', '9', '5'] 4095 ∧ ¬ 4095 < 4095) := by
  simp [IsDec, Nat.ofDigits_cons]

theorem witness_EncodedLinesDecodeToTheirInstructions : OpcodeTable.default.WF ∧
    encodeLine .default "STOR M(4)".toList = .ok 0x2100400000#40 ∧
    encodeLine .default "MUL M(0) LOAD MQ".toList = .ok 0x0B0000A000#40 := by decide +kernel

theorem witness_TheFirstEncodingErrorIsReported :
    (∀ l ∈ ["HALT".toList], tokens l ≠ ["EXIT".toList]) ∧ encodeLine .default "HALT".toList = .ok 0#40 ∧
    tokens "LOAD M(5)".toList ≠ ["EXIT".toList] ∧
    encodeLine .default "LOAD M(5)".toList = .error .unknownSignature := by decide +kernel

theorem witness_BlanksOnlySeparateTokens : ((∀ c ∈ [' ', '\t'], c = ' ' ∨ c = '\t') ∧ [' ', '\t'] ≠ []) ∧
    (['M', '(', '7', ')'] ≠ [] ∧ ∀ c ∈ ['M', '(', '7', ')'], c ≠ ' ' ∧ c ≠ '\t') := by simp

/-- The last cell, a word and a number. -/
theorem witness_HostOperationsWriteWhatTheyName : State.reset.status ≠ .running ∧ 999 < State.reset.cfg.memSize ∧
    Cell.word 0#40 ≠ .uninit ∧ Cell.num 0 ≠ .uninit := by decide +kernel

/-- Ten words that end at the last cell, and eleven that do not fit. -/
theorem witness_LoadProgramPlacesTheWords : State.reset.status ≠ .running ∧
    990 + (List.replicate 10 0#40).length ≤ State.reset.cfg.memSize ∧
    State.reset.cfg.memSize < 990 + (List.replicate 11 0#40).length := by decide +kernel

theorem witness_LoadsSetPcAndStartAreRefusedWhileRunning : (runningAt 500#12).status = .running := rfl

end Sys2Proof.Tests
end

section
/-! PROOF. STOR (41_data_transfer.md R173) writes one cell of memory, and no other (20_memory.md R60). -/

namespace Sys2Proof.Machine

/-! ## Reading back a cell that holds something -/

/-- A listed cell is found at the front, whatever the rest of the list holds. -/
theorem Memory.read_put_of_ne_uninit (m : Memory) (a : Nat) {c : Cell} (hc : c ≠ .uninit) :
    Memory.read (Memory.put a c m) a = c := by
  rw [Memory.put, if_neg hc, Memory.read_cons, if_pos rfl]

/-- Unlike `Memory.read_write_same`, this asks nothing of the list: only a write of `U` relies on the canonical form. -/
theorem Memory.read_write_of_ne_uninit (m : Memory) (a : Nat) {c : Cell} (hc : c ≠ .uninit) :
    (m.write a c).read a = c := by
  induction m with
  | nil => exact Memory.read_put_of_ne_uninit [] a hc
  | cons q m ih =>
    obtain ⟨b, d⟩ := q
    simp only [Memory.write]
    split
    · exact Memory.read_put_of_ne_uninit _ a hc
    · split
      · exact Memory.read_put_of_ne_uninit m a hc
      · rename_i hab
        rw [Memory.read_cons, if_neg hab, ih]

/-! ## The two answers of STOR -/

variable {s : State} {x : Addr}

theorem exec_stor_inside (h : x.toNat < s.cfg.memSize) :
    exec (.stor x) s =
      .next { s with mar := x, mbr := .num s.ac, mem := s.mem.write x.toNat (.num s.ac) } := by
  simp only [exec, execStor]
  rcases s.memWrite_cases x (.num s.ac) with ⟨hout, _⟩ | ⟨_, e⟩
  · exact absurd h (Nat.not_lt.mpr hout)
  · rw [e, State.completePhase_ok]

theorem exec_stor_outside (h : s.cfg.memSize ≤ x.toNat) :
    exec (.stor x) s = .next (s.raise (.addressError x)) := by
  simp only [exec, execStor]
  rcases s.memWrite_cases x (.num s.ac) with ⟨_, e⟩ | ⟨hin, _⟩
  · rw [e, State.completePhase_error]
  · exact absurd hin (Nat.not_lt.mpr h)

/-- Settles O4: the cell written reads back because `N(AC)` is not `U`, and a write leaves every other address alone. -/
theorem storWritesOneCell : Obligations.StorWritesOneCell := by
  intro s x
  refine ⟨fun hin => ⟨_, exec_stor_inside hin, rfl, ?_, fun a ha => ?_⟩, fun hout => exec_stor_outside hout⟩
  · exact Memory.read_write_of_ne_uninit s.mem x.toNat Cell.noConfusion
  · exact Memory.read_write_other s.mem x.toNat a _ ha

end Sys2Proof.Machine
end

section
/-! PROOF. The four fields of a word (30_encoding.md R81), as bits and as numbers. -/

namespace Sys2Proof.Machine

/-- A field of a field is a field of the whole, its position counted from there. -/
theorem extractLsb'_extractLsb' {n p l q k : Nat} (b : BitVec n) (h : q + k ≤ l) :
    (b.extractLsb' p l).extractLsb' q k = b.extractLsb' (p + q) k := by
  ext i hi
  simp [show q + i < l by omega, Nat.add_assoc]

theorem opcodeField_leftSlot (w : Word) : opcodeField (leftSlot w) = w.extractLsb' 32 8 :=
  extractLsb'_extractLsb' w (by decide)

theorem addrField_leftSlot (w : Word) : addrField (leftSlot w) = w.extractLsb' 20 12 :=
  extractLsb'_extractLsb' w (by decide)

theorem opcodeField_rightSlot (w : Word) : opcodeField (rightSlot w) = w.extractLsb' 12 8 :=
  extractLsb'_extractLsb' w (by decide)

theorem addrField_rightSlot (w : Word) : addrField (rightSlot w) = w.extractLsb' 0 12 :=
  extractLsb'_extractLsb' w (by decide)

theorem toNat_word_eq_slots (w : Word) : w.toNat = (leftSlot w).toNat * 2 ^ 20 + (rightSlot w).toNat := by
  have := w.isLt
  simp only [leftSlot, rightSlot, BitVec.extractLsb'_toNat, Nat.shiftRight_eq_div_pow]
  omega

theorem toNat_slot_eq_fields (b : Slot) : b.toNat = (opcodeField b).toNat * 2 ^ 12 + (addrField b).toNat := by
  have := b.isLt
  simp only [opcodeField, addrField, BitVec.extractLsb'_toNat, Nat.shiftRight_eq_div_pow]
  omega

/-- Settles O49: a word is its two slots, and a slot its two fields. -/
theorem wordFieldsAreTheSpecsBits : Obligations.WordFieldsAreTheSpecsBits := by
  intro w
  refine ⟨opcodeField_leftSlot w, addrField_leftSlot w, opcodeField_rightSlot w, addrField_rightSlot w, ?_⟩
  rw [toNat_word_eq_slots w, toNat_slot_eq_fields (leftSlot w), toNat_slot_eq_fields (rightSlot w)]
  ring

end Sys2Proof.Machine
end

section
/-! PROOF. All-zero slots and zero opcodes (30_encoding.md R89): HALT in a slot does nothing (44_control.md R201 (b)), so
the word cycle is what its other half, the decodes and ADVANCE leave. -/

namespace Sys2Proof.Machine

variable {s t u : State} {w : Word} {i j : Instr}

/-! ## Decoding a zero opcode -/

/-- HALT is the last opcode R86 tries; in a well-formed table none of the eleven before it is zero. -/
theorem decodeSlot_zero_opcode {t : OpcodeTable} {b : Slot} (ht : t.WF) (hb : opcodeField b = 0#8) :
    decodeSlot t b = .instr .halt := by
  obtain ⟨hzero, hnodup⟩ := ht
  have hne : 0#8 ∉ [t.loadNeg, t.add, t.sub, t.loadMqMem, t.loadMq, t.mul, t.div, t.jumpPlus, t.disc, t.sqrt, t.stor] :=
    hzero ▸ (List.nodup_cons.mp hnodup).1
  simp only [List.mem_cons, List.not_mem_nil, or_false, not_or] at hne
  simp [decodeSlot, hb, hne, hzero]

/-! ## The states of a word cycle, in the statements' words -/

theorem ReadyToExecute.running (h : ReadyToExecute s w) : s.status = .running := h.1

theorem ReadyToExecute.fetches (h : ReadyToExecute s w) : s.Fetches w := by
  obtain ⟨-, hend, hroots, hin, hcell, hne, hcyc⟩ := h
  exact ⟨hend, hroots, hin, hcell, hne, hcyc⟩

theorem State.fetched_decodeLeft (s : State) (w : Word) : (s.fetched w).decodeLeft w = afterDecodeLeft s w := by
  simp [State.decodeLeft, State.fetched, State.noteAccess, afterDecodeLeft, opcodeField_leftSlot, addrField_leftSlot,
    rightSlot]

/-- DECODE-RIGHT reads IBR, which a completed left half leaves as DECODE-LEFT set it. -/
theorem decodeRight_eq_afterDecodeRight (h : Completes i (afterDecodeLeft s w) t) :
    t.decodeRight = afterDecodeRight t w := by
  have hibr : t.ibr = rightSlot w := h.ibr
  simp only [State.decodeRight, afterDecodeRight, hibr, opcodeField_rightSlot, addrField_rightSlot]

theorem afterDecodeLeft_slot (s : State) (w : Word) :
    mkSlot (afterDecodeLeft s w).ir (afterDecodeLeft s w).mar = leftSlot w := by
  rw [← State.fetched_decodeLeft, State.decodeLeft_slot]

theorem afterDecodeRight_slot (t : State) (w : Word) :
    mkSlot (afterDecodeRight t w).ir (afterDecodeRight t w).mar = rightSlot w := by
  rw [afterDecodeRight, ← opcodeField_rightSlot, ← addrField_rightSlot, mkSlot_fields]

theorem State.execHalf_of_decode (h : decodeSlot s.cfg.opc (mkSlot s.ir s.mar) = .instr i) :
    s.execHalf = exec i s := by
  rw [State.execHalf, h]

/-- An EXECUTE phase that leaves the engine RUNNING raised nothing. -/
theorem Completes.of_running (h : exec i s = .next t) (ht : t.status = .running) : Completes i s t := by
  rcases exec_cases i s with ⟨f, hf⟩ | ⟨t', ht', hc⟩
  · cases h.symm.trans hf
    exact absurd ht (State.raise_not_running f)
  · cases h.symm.trans ht'
    exact hc

/-- Where the halves of a word both complete, the step is the two of them and ADVANCE (R141, lines 6 to 10). -/
theorem step_of_running_halves (hready : ReadyToExecute s w)
    (hi : decodeSlot s.cfg.opc (leftSlot w) = .instr i) (hleft : exec i (afterDecodeLeft s w) = .next t)
    (ht : t.status = .running)
    (hj : decodeSlot s.cfg.opc (rightSlot w) = .instr j) (hright : exec j (afterDecodeRight t w) = .next u)
    (hu : u.status = .running) : step s = .next (afterAdvance u) := by
  have hc : Completes i (afterDecodeLeft s w) t := .of_running hleft ht
  have hleftHalf : (afterDecodeLeft s w).execHalf = .next t :=
    (State.execHalf_of_decode (by
      rw [afterDecodeLeft_slot, show (afterDecodeLeft s w).cfg = s.cfg from rfl, hi])).trans hleft
  have hrightHalf : (afterDecodeRight t w).execHalf = .next u :=
    (State.execHalf_of_decode (by
      rw [afterDecodeRight_slot, show (afterDecodeRight t w).cfg = s.cfg from hc.cfg, hj])).trans hright
  rw [step_eq, State.stepWord_eq hready.running hready.fetches, State.fetched_decodeLeft, hleftHalf,
    whileRunning_running _ ht, decodeRight_eq_afterDecodeRight hc, hrightHalf, whileRunning_running _ hu]
  rfl

/-! ## The HALT word, and no other -/

theorem step_haltWord (hs : s.status = .running) (hend : s.pc ≠ s.cfg.haltPc) (hroots : s.pc ≠ s.cfg.noRootsPc)
    (hin : s.pc.toNat < s.cfg.memSize) (hcell : s.mem.read s.pc.toNat = .word 0#40) :
    step s = .next ((s.noteAccess s.pc (.word 0#40)).halt .haltWord) :=
  step_stopped hs (State.fetchWord_haltWord hend hroots hin hcell)

/-- Past FETCH a word cycle ends FAULTED or RUNNING: only FETCH halts. -/
theorem step_fetched_not_halted (hs : s.status = .running) (hw : s.Fetches w) (h : step s = .next t) (r : HaltReason) :
    t.status ≠ .halted r := by
  rcases step_fetched hs hw with ⟨f, e⟩ | ⟨i, l, -, -, hl, ⟨f, e⟩ | ⟨j, u, -, -, hu, e⟩⟩ <;> cases h.symm.trans e
  · simp
  · simp
  · have hrun : u.status = .running := (hu.status.trans hl.status).trans hs
    simp [hrun]

/-- Settles O27: a slot with a zero opcode decodes to HALT, whose `exec` answers the state it is given. -/
theorem zeroSlotsAreNoOperations : Obligations.ZeroSlotsAreNoOperations := by
  refine ⟨fun s hs hend hroots hin hcell => ⟨_, step_haltWord hs hend hroots hin hcell, rfl⟩, fun s w hwf hready => ?_⟩
  have hs : s.status = .running := hready.running
  have hhalt {b : Slot} (hb : opcodeField b = 0#8) : decodeSlot s.cfg.opc b = .instr .halt :=
    decodeSlot_zero_opcode hwf hb
  refine ⟨fun t h => step_fetched_not_halted hs hready.fetches h .haltWord, fun hl hr => ?_,
    fun i t hr hi hleft ht => ?_, fun j u hl hj hright hu => ?_⟩
  · exact step_of_running_halves hready (hhalt ((opcodeField_leftSlot w).trans hl)) rfl hs
      (hhalt ((opcodeField_rightSlot w).trans hr)) rfl hs
  · have hzero : opcodeField (rightSlot w) = 0#8 := congrArg opcodeField hr
    exact step_of_running_halves hready hi hleft ht (hhalt hzero) rfl ht
  · have hzero : opcodeField (leftSlot w) = 0#8 := congrArg opcodeField hl
    exact step_of_running_halves hready (hhalt hzero) rfl hs hj hright hu

end Sys2Proof.Machine
end

section
/-! PROOF. The words of the lines JUMP+, DISC and LOAD MQ,M(X) (35_encoder.md R115 to R117): a line of two tokens (R112)
is its instruction's word (R113, R123), and a decimal numeral is read as its value. -/

namespace Sys2Proof.Machine

/-! ## A line of two tokens (R112) -/

/-- No character of the text is a blank. -/
def BlankFree (cs : List Char) : Prop := ∀ c ∈ cs, isBlank c = false

@[simp] theorem blankFree_nil : BlankFree [] := List.forall_mem_nil _

@[simp] theorem blankFree_cons {c : Char} {cs : List Char} :
    BlankFree (c :: cs) ↔ isBlank c = false ∧ BlankFree cs := List.forall_mem_cons

@[simp] theorem blankFree_append {cs es : List Char} : BlankFree (cs ++ es) ↔ BlankFree cs ∧ BlankFree es :=
  List.forall_mem_append

theorem blankFree_iff {cs : List Char} : BlankFree cs ↔ ∀ c ∈ cs, c ≠ ' ' ∧ c ≠ '\t' := by
  simp [BlankFree, isBlank]

/-- A blank-free text is one token, where the line ends or a blank follows. -/
theorem tokens_append {cs rest : List Char} (hne : cs ≠ []) (hcs : BlankFree cs)
    (hrest : ∀ c, rest.head? = some c → isBlank c = true) : tokens (cs ++ rest) = cs :: tokens rest := by
  induction cs with
  | nil => exact absurd rfl hne
  | cons c cs ih =>
    obtain ⟨hc, hcs⟩ := blankFree_cons.mp hcs
    cases cs with
    | nil =>
      cases rest with
      | nil => exact tokens_single hc
      | cons d rest => exact tokens_before_blank hc (hrest d rfl) rest
    | cons d cs => exact tokens_grow hc (blankFree_cons.mp hcs).1 (ih (List.cons_ne_nil d cs) hcs)

theorem tokens_blankFree {cs : List Char} (hne : cs ≠ []) (hcs : BlankFree cs) : tokens cs = [cs] := by
  simpa [tokens_nil] using tokens_append (rest := []) hne hcs (by simp)

/-- A text that the tokenizer keeps whole. -/
def IsToken (cs : List Char) : Prop := cs ≠ [] ∧ BlankFree cs

section TwoTokens

variable {op arg : List Char}

theorem tokens_two (hop : IsToken op) (harg : IsToken arg) : tokens (op ++ ' ' :: arg) = [op, arg] := by
  obtain ⟨hop, hopBlank⟩ := hop
  obtain ⟨harg, hargBlank⟩ := harg
  rw [tokens_append hop hopBlank (by simp [isBlank]), tokens_blank rfl, tokens_blankFree harg hargBlank]

theorem classify_tokens_two (hop : IsToken op) (harg : IsToken arg) :
    classify (tokens (op ++ ' ' :: arg)) = (classifyTwo op arg).map .single := by
  rw [tokens_two hop harg, classify]

theorem encodeLine_of_classifyTwo_some {t : OpcodeTable} {i : SrcInstr} (hop : IsToken op) (harg : IsToken arg)
    (h : classifyTwo op arg = some i) :
    encodeLine t (op ++ ' ' :: arg) = if i.wf then .ok (encodeSingle t (toInstr i)) else .error .operandRange := by
  rw [encodeLine, classify_tokens_two hop harg, h]
  rfl

theorem encodeLine_of_classifyTwo_none {t : OpcodeTable} (hop : IsToken op) (harg : IsToken arg)
    (h : classifyTwo op arg = none) : encodeLine t (op ++ ' ' :: arg) = .error .unknownSignature := by
  rw [encodeLine, classify_tokens_two hop harg, h]
  rfl

end TwoTokens

/-! ## Decimal numerals -/

theorem isBlank_eq_false_of_isDigit {c : Char} (h : c.isDigit = true) : isBlank c = false := by
  have hb : ¬(c = ' ' ∨ c = '\t') := by rintro (rfl | rfl) <;> simp at h
  simpa [isBlank] using hb

/-- Horner's rule from the left and the digits taken from the right give the same number. -/
theorem decValue_eq_ofDigits (ds : List Char) :
    decValue ds = Nat.ofDigits 10 (ds.reverse.map fun c => c.toNat - 48) := by
  simp [decValue, Nat.ofDigits_eq_foldr, List.foldl_map, Nat.add_comm]

theorem IsDec.ne_nil {ds : List Char} {n : Nat} (h : IsDec ds n) : ds ≠ [] := h.1

theorem IsDec.isDigit {ds : List Char} {n : Nat} (h : IsDec ds n) : ∀ c ∈ ds, c.isDigit = true := h.2.1

theorem IsDec.decValue {ds : List Char} {n : Nat} (h : IsDec ds n) : decValue ds = n :=
  (decValue_eq_ofDigits ds).trans h.2.2

theorem IsDec.blankFree {ds : List Char} {n : Nat} (h : IsDec ds n) : BlankFree ds :=
  fun c hc => isBlank_eq_false_of_isDigit (h.isDigit c hc)

/-! ## The operand tokens of the three lines (R115 to R117) -/

theorem tokDref_mrefs {da db dc : List Char} {a b c : Nat} (ha : IsDec da a) (hb : IsDec db b) (hc : IsDec dc c) :
    tokDref ('M' :: '(' :: (da ++ ')' :: ',' :: 'M' :: '(' :: (db ++ ')' :: ',' :: 'M' :: '(' :: (dc ++ [')'])))) =
      some (a, b, c) := by
  simp [tokDref, readLit, readMref_append _ ha.ne_nil ha.isDigit ha.decValue,
    readMref_append _ hb.ne_nil hb.isDigit hb.decValue, tokMref_mref hc.ne_nil hc.isDigit hc.decValue]

theorem classifyTwo_jumpPlus (arg : Token) :
    classifyTwo ['J', 'U', 'M', 'P', '+'] arg = (tokJref arg).map .jumpPlus := rfl

theorem classifyTwo_disc {arg : Token} {i j k : Nat} (h : tokDref arg = some (i, j, k)) :
    classifyTwo ['D', 'I', 'S', 'C'] arg = some (.disc i j k) := by
  simp [classifyTwo, h]

theorem classifyTwo_loadMqMem {arg : Token} {n : Nat} (h : tokMqMref arg = some n) :
    classifyTwo ['L', 'O', 'A', 'D'] arg = some (.loadMqMem n) := by
  simp [classifyTwo, h]

/-! ## The three lines -/

variable {t : OpcodeTable} {ds rest : List Char} {n : Nat}

theorem jumpPlusLine_eq (ds rest : List Char) :
    "JUMP+ M(".toList ++ ds ++ rest = ['J', 'U', 'M', 'P', '+'] ++ ' ' :: 'M' :: '(' :: (ds ++ rest) := by simp

theorem discLine_eq (da db dc : List Char) :
    "DISC M(".toList ++ da ++ "),M(".toList ++ db ++ "),M(".toList ++ dc ++ ")".toList = ['D', 'I', 'S', 'C'] ++ ' ' ::
      'M' :: '(' :: (da ++ ')' :: ',' :: 'M' :: '(' :: (db ++ ')' :: ',' :: 'M' :: '(' :: (dc ++ [')']))) := by simp

theorem loadMqMemLine_eq (ds : List Char) :
    "LOAD MQ,M(".toList ++ ds ++ ")".toList =
      ['L', 'O', 'A', 'D'] ++ ' ' :: 'M' :: 'Q' :: ',' :: 'M' :: '(' :: (ds ++ [')']) := by simp

theorem encodeLine_jumpPlus (h : IsDec ds n) :
    encodeLine t ("JUMP+ M(".toList ++ ds ++ ",0:19)".toList) =
      if n < 4096 then .ok (encodeSingle t (.jumpPlus (BitVec.ofNat 12 n))) else .error .operandRange := by
  have harg := tokJref_append (rest := [',', '0', ':', '1', '9', ')']) h.ne_nil h.isDigit h.decValue (by simp)
  rw [jumpPlusLine_eq, encodeLine_of_classifyTwo_some (i := .jumpPlus n) (by simp [IsToken, isBlank])
    (by simp [IsToken, isBlank, h.blankFree]) (by simp [classifyTwo_jumpPlus, harg])]
  simp [SrcInstr.wf, toInstr]

theorem encodeLine_jumpPlus_other_suffix (h : IsDec ds n) (hblank : BlankFree rest)
    (hdigit : ∀ c, rest.head? = some c → c.isDigit = false) (hrest : rest ≠ ",0:19)".toList) :
    encodeLine t ("JUMP+ M(".toList ++ ds ++ rest) = .error .unknownSignature := by
  have harg : tokJref ('M' :: '(' :: (ds ++ rest)) = none :=
    (tokJref_append h.ne_nil h.isDigit h.decValue hdigit).trans (if_neg (by simpa using hrest))
  rw [jumpPlusLine_eq]
  exact encodeLine_of_classifyTwo_none (by simp [IsToken, isBlank]) (by simp [IsToken, isBlank, h.blankFree, hblank])
    (by simp [classifyTwo_jumpPlus, harg])

theorem encodeLine_disc {da db dc : List Char} {a b c : Nat} (ha : IsDec da a) (hb : IsDec db b) (hc : IsDec dc c) :
    encodeLine t ("DISC M(".toList ++ da ++ "),M(".toList ++ db ++ "),M(".toList ++ dc ++ ")".toList) =
      if a < 16 ∧ b < 16 ∧ c < 16 then
        .ok (encodeSingle t (.disc (BitVec.ofNat 4 a) (BitVec.ofNat 4 b) (BitVec.ofNat 4 c)))
      else .error .operandRange := by
  rw [discLine_eq, encodeLine_of_classifyTwo_some (by simp [IsToken, isBlank])
    (by simp [IsToken, isBlank, ha.blankFree, hb.blankFree, hc.blankFree])
    (classifyTwo_disc (tokDref_mrefs ha hb hc))]
  simp [SrcInstr.wf, toInstr, and_assoc]

theorem encodeLine_loadMqMem (h : IsDec ds n) :
    encodeLine t ("LOAD MQ,M(".toList ++ ds ++ ")".toList) =
      if n < 4096 then .ok (encodeSingle t (.loadMqMem (BitVec.ofNat 12 n))) else .error .operandRange := by
  rw [loadMqMemLine_eq, encodeLine_of_classifyTwo_some (by simp [IsToken, isBlank])
    (by simp [IsToken, isBlank, h.blankFree])
    (classifyTwo_loadMqMem (tokMqMref_mref h.ne_nil h.isDigit h.decValue))]
  simp [SrcInstr.wf, toInstr]

/-- The three fields of DISC stand one after the other, between the opcode and the zero right slot. -/
theorem encodeSingle_disc (t : OpcodeTable) (i j k : DiscField) :
    encodeSingle t (.disc i j k) = t.disc ++ i ++ j ++ k ++ 0#20 := by
  have h : mkSlot t.disc (mkDiscFields i j k) = t.disc ++ i ++ j ++ k := by
    simp only [mkSlot, mkDiscFields, BitVec.append_assoc, BitVec.cast_eq]
  exact congrArg (mkWord · 0#20) h

/-- Settles O50: each line is two tokens, of which the second reads back the numerals. -/
theorem jumpDiscAndLoadMqLinesEncode : Obligations.JumpDiscAndLoadMqLinesEncode := by
  intro t
  refine ⟨fun ds n h hn => ?_, fun ds n rest h hblank hdigit hrest => ?_, fun da db dc a b c ha hb hc la lb lc => ?_,
    fun ds n h hn => ?_⟩
  · rw [encodeLine_jumpPlus h, if_pos (Nat.lt_succ_of_le hn)]
    rfl
  · exact encodeLine_jumpPlus_other_suffix h (blankFree_iff.mpr hblank) hdigit hrest
  · rw [encodeLine_disc ha hb hc, if_pos ⟨Nat.lt_succ_of_le la, Nat.lt_succ_of_le lb, Nat.lt_succ_of_le lc⟩,
      encodeSingle_disc]
  · rw [encodeLine_loadMqMem h, if_pos (Nat.lt_succ_of_le hn)]
    rfl

end Sys2Proof.Machine
end

section
/-! PROOF. The word cycle (40_cycle.md R141): FETCH with its three faults (R144) and the HALT word (R145), then the
decoded pair, left half first (R147 to R151). -/

namespace Sys2Proof.Machine

variable {s t u : State} {w : Word} {i j : Instr}

/-! ## FETCH -/

/-- A fault of the fetch read is the step's answer, and no other phase is reached (R144). -/
theorem step_fetchFault {f : EngineFault} (hs : s.status = .running) (hend : s.pc ≠ s.cfg.haltPc)
    (hroots : s.pc ≠ s.cfg.noRootsPc) (hread : s.memReadWord s.pc = .error f) :
    step s = .next (faultStateIn s .fetch f) :=
  step_stopped hs (State.fetchWord_fault hend hroots hread)

/-- Settles O23: each clause is one answer of the fetch read, and a fault of it stops the engine. -/
theorem fetchReadsTheWordAtPc : Obligations.FetchReadsTheWordAtPc := by
  intro s hs hend hroots
  refine ⟨fun hout => ?_, fun hin hcell => ?_, fun v hin hcell => ?_, fun w hin hcell => ?_⟩
  · exact step_fetchFault hs hend hroots (State.memReadWord_outside hout)
  · exact step_fetchFault hs hend hroots (State.memReadWord_uninit hin hcell)
  · exact step_fetchFault hs hend hroots (State.memReadWord_num hin hcell)
  · exact State.memReadWord_word hin hcell

/-- Settles O24: the fetch read notes its access in MAR and MBR, and the test of the whole word halts. -/
theorem haltWordStopsTheEngine : Obligations.HaltWordStopsTheEngine := by
  intro s hs hend hroots hin hcell
  exact step_haltWord hs hend hroots hin hcell

/-! ## The decoded pair -/

/-- An EXECUTE phase always answers a state: what it reached, or the one with its fault taken. -/
theorem exec_answers (i : Instr) (s : State) : ∃ t, exec i s = .next t := by
  rcases exec_cases i s with ⟨f, hf⟩ | ⟨t, ht, -⟩
  · exact ⟨_, hf⟩
  · exact ⟨t, ht⟩

/-- Past FETCH and DECODE-LEFT, a step is the left instruction, then the right half, then ADVANCE. -/
theorem step_eq_leftInstr (hready : ReadyToExecute s w) (hi : decodeSlot s.cfg.opc (leftSlot w) = .instr i) :
    step s = whileRunning (exec i (afterDecodeLeft s w)) fun t =>
      whileRunning t.decodeRight.execHalf fun u => .next u.advance := by
  have hleft : (afterDecodeLeft s w).execHalf = exec i (afterDecodeLeft s w) :=
    State.execHalf_of_decode (by rw [afterDecodeLeft_slot]; exact hi)
  rw [step_eq, State.stepWord_eq hready.running hready.fetches, State.fetched_decodeLeft, hleft]

/-- The right half executes the instruction in the right slot of the word that was fetched (R149): a completed left half
left IBR and the opcode table alone. -/
theorem execHalf_decodeRight (h : Completes i (afterDecodeLeft s w) t)
    (hj : decodeSlot s.cfg.opc (rightSlot w) = .instr j) :
    t.decodeRight.execHalf = exec j (afterDecodeRight t w) := by
  have hcfg : (afterDecodeRight t w).cfg = s.cfg := h.cfg
  rw [decodeRight_eq_afterDecodeRight h]
  exact State.execHalf_of_decode (by rw [afterDecodeRight_slot, hcfg]; exact hj)

theorem step_of_left_stopped (hready : ReadyToExecute s w) (hi : decodeSlot s.cfg.opc (leftSlot w) = .instr i)
    (hleft : exec i (afterDecodeLeft s w) = .next t) (ht : t.status ≠ .running) : step s = .next t := by
  rw [step_eq_leftInstr hready hi, hleft, whileRunning_stopped _ ht]

theorem step_of_right_stopped (hready : ReadyToExecute s w) (hi : decodeSlot s.cfg.opc (leftSlot w) = .instr i)
    (hleft : exec i (afterDecodeLeft s w) = .next t) (ht : t.status = .running)
    (hj : decodeSlot s.cfg.opc (rightSlot w) = .instr j) (hright : exec j (afterDecodeRight t w) = .next u)
    (hu : u.status ≠ .running) : step s = .next u := by
  have hc : Completes i (afterDecodeLeft s w) t := .of_running hleft ht
  rw [step_eq_leftInstr hready hi, hleft, whileRunning_running _ ht, execHalf_decodeRight hc hj, hright,
    whileRunning_stopped _ hu]

/-- Settles O20: the word cycle ends with the left half, ends with the right half, or runs on to ADVANCE. -/
theorem stepRunsTheDecodedPair : Obligations.StepRunsTheDecodedPair := by
  intro s w i j hready hi hj
  obtain ⟨t, hleft⟩ := exec_answers i (afterDecodeLeft s w)
  refine ⟨t, hleft, fun ht => step_of_left_stopped hready hi hleft ht, fun ht => ?_⟩
  obtain ⟨u, hright⟩ := exec_answers j (afterDecodeRight t w)
  exact ⟨u, hright, fun hu => step_of_right_stopped hready hi hleft ht hj hright hu,
    fun hu => step_of_running_halves hready hi hleft ht hj hright hu⟩

end Sys2Proof.Machine
end

section
/-! PROOF. The slot of an instruction decodes to it (30_encoding.md R82, R83, R86). -/

namespace Sys2Proof.Machine

theorem fieldI_mkDiscFields (a b c : DiscField) : fieldI (mkDiscFields a b c) = a :=
  BitVec.extractLsb'_append_eq_left

theorem lowByte_mkDiscFields (a b c : DiscField) : (mkDiscFields a b c).extractLsb' 0 8 = b ++ c :=
  BitVec.extractLsb'_append_eq_right

theorem fieldJ_mkDiscFields (a b c : DiscField) : fieldJ (mkDiscFields a b c) = b :=
  calc (mkDiscFields a b c).extractLsb' 4 4
    _ = ((mkDiscFields a b c).extractLsb' 0 8).extractLsb' 4 4 := Eq.symm (extractLsb'_extractLsb' _ (by decide))
    _ = (b ++ c).extractLsb' 4 4 := by rw [lowByte_mkDiscFields]
    _ = b := BitVec.extractLsb'_append_eq_left

theorem fieldK_mkDiscFields (a b c : DiscField) : fieldK (mkDiscFields a b c) = c :=
  calc (mkDiscFields a b c).extractLsb' 0 4
    _ = ((mkDiscFields a b c).extractLsb' 0 8).extractLsb' 0 4 := Eq.symm (extractLsb'_extractLsb' _ (by decide))
    _ = (b ++ c).extractLsb' 0 4 := by rw [lowByte_mkDiscFields]
    _ = c := BitVec.extractLsb'_append_eq_right

/-- The opcode of an instruction is found at its own row of R86: the patterns are pairwise different, which is needed in
both directions because R86 tries the rows in another order than R84 lists them. -/
theorem decodeSlot_encodeSlot {t : OpcodeTable} (ht : t.WF) (i : Instr) : decodeSlot t (encodeSlot t i) = .instr i := by
  have hne : t.patterns.Nodup := ht.2
  have hne' : t.patterns.reverse.Nodup := List.nodup_reverse.mpr hne
  simp only [OpcodeTable.patterns, List.reverse_cons, List.reverse_nil, List.nil_append, List.cons_append,
    List.nodup_cons, List.mem_cons, List.not_mem_nil, or_false, not_or] at hne hne'
  obtain ⟨hopcode, haddr⟩ := Laws.SlotFields.ofInstr i t
  simp only [decodeSlot, hopcode, haddr]
  cases i with
  | disc a b c =>
    simp only [Instr.opcode, Instr.addrBits, if_true, fieldI_mkDiscFields, fieldJ_mkDiscFields, fieldK_mkDiscFields]
  | _ => simp [Instr.opcode, Instr.addrBits, hne, hne']

end Sys2Proof.Machine
end

section
/-! PROOF. The two loads of an operand, LOAD -M(X) and LOAD MQ,M(X) (41_data_transfer.md R170, R171): an EXECUTE phase
with one operand read answers one of the read's three faults (20_memory.md R58, R59) or goes on with the number. -/

namespace Sys2Proof.Machine

variable {s : State} {x : Addr} {i : Instr} {k : Number → State → Except EngineFault State}

/-! ## An EXECUTE phase with one operand read -/

theorem State.withOperand_error {f : EngineFault} (h : s.memReadNum x = .error f) :
    s.withOperand x k = .next (faultState s f) := by
  rw [State.withOperand, h]
  rfl

theorem State.withOperand_num {v : Number} (hin : x.toNat < s.cfg.memSize) (hcell : s.mem.read x.toNat = .num v) :
    s.withOperand x k = s.completePhase (k v (s.noteAccess x (.num v))) := by
  rw [State.withOperand, State.memReadNum_num hin hcell]

/-- The three faults come from the read, whatever the instruction would have done with the number. -/
theorem operandFaults_of_withOperand (h : exec i s = s.withOperand x k) : OperandFaults i x s := by
  refine ⟨fun hout => ?_, fun hin hcell => ?_, fun w hin hcell => ?_⟩
  · exact h.trans (State.withOperand_error (State.memReadNum_outside hout))
  · exact h.trans (State.withOperand_error (State.memReadNum_uninit hin hcell))
  · exact h.trans (State.withOperand_error (State.memReadNum_word hin hcell))

/-! ## The loads -/

/-- Settles O1: the number read is noted in MAR and MBR, and its negation is AC. -/
theorem loadNegNegatesTheOperand : Obligations.LoadNegNegatesTheOperand := by
  intro s x
  exact ⟨fun v hin hcell => State.withOperand_num hin hcell, operandFaults_of_withOperand rfl,
    fun t ht => decodeSlot_encodeSlot ht (.loadNeg x)⟩

/-- Settles O2: the number read is noted in MAR and MBR, and is MQ. -/
theorem loadMqReadsMemory : Obligations.LoadMqReadsMemory := by
  intro s x
  exact ⟨fun v hin hcell => State.withOperand_num hin hcell, operandFaults_of_withOperand rfl,
    fun t ht => decodeSlot_encodeSlot ht (.loadMqMem x)⟩

end Sys2Proof.Machine
end

section
/-! PROOF. ADD M(X), SUB M(X) and MUL M(X) (42_arithmetic.md R180, R181, R182): the numbers are rationals, so the sum,
the difference and the product are the exact ones, and after the operand read nothing can fault. -/

namespace Sys2Proof.Machine

variable {s : State} {x : Addr} {v : Number}

/-- An instruction that raises no fault of its own completes from the state the read leaves, with MAR and MBR written. -/
theorem State.withOperand_ok {f : Number → State → State} (hin : x.toNat < s.cfg.memSize)
    (hcell : s.mem.read x.toNat = .num v) :
    s.withOperand x (fun u t => .ok (f u t)) = .next (f v (s.noteAccess x (.num v))) := by
  rw [State.withOperand_num hin hcell, State.completePhase_ok]

/-! ## The three results -/

theorem exec_add_num (hin : x.toNat < s.cfg.memSize) (hcell : s.mem.read x.toNat = .num v) :
    exec (.add x) s = .next { s with ac := s.ac + v, mar := x, mbr := .num v } :=
  State.withOperand_ok hin hcell

theorem exec_sub_num (hin : x.toNat < s.cfg.memSize) (hcell : s.mem.read x.toNat = .num v) :
    exec (.sub x) s = .next { s with ac := s.ac - v, mar := x, mbr := .num v } :=
  State.withOperand_ok hin hcell

/-- The factor is the MQ of before; the AC of before does not occur. -/
theorem exec_mul_num (hin : x.toNat < s.cfg.memSize) (hcell : s.mem.read x.toNat = .num v) :
    exec (.mul x) s = .next { s with ac := v, mq := v * s.mq, mar := x, mbr := .num v } :=
  State.withOperand_ok hin hcell

/-! ## The obligations -/

/-- Settles O5: the sum with the number read, the faults of the operand read, and the slot of ADD's own encoding. -/
theorem addAddsTheOperand : Obligations.AddAddsTheOperand := by
  intro s x
  refine ⟨fun v hin hcell => exec_add_num hin hcell, ?faults, fun t ht => ?decodes⟩
  case faults => exact operandFaults_of_withOperand rfl
  case decodes => exact decodeSlot_encodeSlot ht (.add x)

/-- Settles O6: the difference with the number read, the faults of the operand read, and the slot of SUB's own
encoding. -/
theorem subSubtractsTheOperand : Obligations.SubSubtractsTheOperand := by
  intro s x
  refine ⟨fun v hin hcell => exec_sub_num hin hcell, ?faults, fun t ht => ?decodes⟩
  case faults => exact operandFaults_of_withOperand rfl
  case decodes => exact decodeSlot_encodeSlot ht (.sub x)

/-- Settles O7: AC is the number read and MQ its product with the old MQ; the faults of the operand read, and the slot
of MUL's own encoding. -/
theorem mulLoadsAcThenMultiplies : Obligations.MulLoadsAcThenMultiplies := by
  intro s x
  refine ⟨fun v hin hcell => exec_mul_num hin hcell, ?faults, fun t ht => ?decodes⟩
  case faults => exact operandFaults_of_withOperand rfl
  case decodes => exact decodeSlot_encodeSlot ht (.mul x)

end Sys2Proof.Machine
end

section
/-! PROOF. What one step leaves behind, said once (40_cycle.md R141), and the rules of the whole machine that follow from
it: the invariant (10_state.md R31, R35; 20_memory.md R50), PC (44_control.md R202), CYC (10_state.md R31), memory
(41_data_transfer.md R173 (d); 20_memory.md R55, R68), the parameters (10_state.md R33) and the end of every run
(40_cycle.md R154). -/

namespace Sys2Proof.Machine

variable {s t : State} {i : Instr}

/-! ## How a step that answers ends -/

/-- The four ends of a word cycle from `s`: at FETCH, with a fault in either half, or with ADVANCE. -/
inductive StepEnds (s t : State) : Prop where
  | atFetch (h : StoppedAtFetch s t)
  | leftFault {w : Word} {f : EngineFault} (hw : s.Fetches w) (ht : t = (afterDecodeLeft s w).raise f)
  | rightFault {w : Word} {i : Instr} {l : State} {f : EngineFault} (hw : s.Fetches w)
      (hi : decodeSlot s.cfg.opc (leftSlot w) = .instr i) (hl : Completes i (afterDecodeLeft s w) l)
      (ht : t = l.decodeRight.raise f)
  | completed {w : Word} {i j : Instr} {l u : State} (hw : s.Fetches w)
      (hi : decodeSlot s.cfg.opc (leftSlot w) = .instr i) (hl : Completes i (afterDecodeLeft s w) l)
      (hj : decodeSlot s.cfg.opc (rightSlot w) = .instr j) (hu : Completes j l.decodeRight u) (ht : t = u.advance)

theorem running_of_step (h : step s = .next t) : s.status = .running := by
  by_contra hs
  cases (step_notRunning hs).symm.trans h

theorem step_answers (hs : s.status = .running) : ∃ t, step s = .next t := by
  rcases step_cases hs with ⟨t, e, -⟩ | ⟨w, -, ⟨f, e⟩ | ⟨i, l, -, -, -, ⟨f, e⟩ | ⟨j, u, -, -, -, e⟩⟩⟩
  · exact ⟨t, e⟩
  · exact ⟨_, e⟩
  · exact ⟨_, e⟩
  · exact ⟨_, e⟩

/-- Settles O19: `exec` and `step` answer no other outcome in any of their cases. -/
theorem everyInstructionAnswersANextState : Obligations.EveryInstructionAnswersANextState :=
  ⟨exec_answers, fun _ => step_answers⟩

theorem step_ends (h : step s = .next t) : StepEnds s t := by
  rcases step_cases (running_of_step h) with ⟨_, e, ht⟩ | ⟨w, hw, hpast⟩
  · cases h.symm.trans e
    exact .atFetch ht
  · rw [State.fetched_decodeLeft] at hpast
    rcases hpast with ⟨f, e⟩ | ⟨i, l, hi, -, hl, ⟨f, e⟩ | ⟨j, u, hj, -, hu, e⟩⟩
    · cases h.symm.trans e
      exact .leftFault hw rfl
    · cases h.symm.trans e
      exact .rightFault hw hi hl rfl
    · cases h.symm.trans e
      exact .completed hw hi hl hj hu rfl

/-! ## The parameters, CYC and PC -/

/-- Settles O35: neither FETCH, nor a completed half, nor a fault, nor ADVANCE writes them. -/
theorem stepNeverWritesTheParameters : Obligations.StepNeverWritesTheParameters := by
  intro s t h
  cases step_ends h with
  | atFetch h => exact h.cfg
  | leftFault _ ht => subst ht; rfl
  | rightFault _ _ hl ht => subst ht; exact hl.cfg
  | completed _ _ hl _ hu ht => subst ht; exact hu.cfg.trans hl.cfg

theorem step_phase (h : step s = .next t) : t.phase = .fetch := by
  cases step_ends h with
  | atFetch h => exact h.phase
  | leftFault _ ht => subst ht; rfl
  | rightFault _ _ _ ht => subst ht; rfl
  | completed _ _ _ _ _ ht => subst ht; rfl

/-- Settles O39: ADVANCE is the only phase that counts, and only a word cycle below the ceiling reaches it. -/
theorem cycCountsCompletedWordCycles : Obligations.CycCountsCompletedWordCycles := by
  intro s t h
  have hs : s.status = .running := running_of_step h
  cases step_ends h with
  | atFetch h => exact ⟨fun hr => absurd hr h.stopped, fun _ => h.cyc⟩
  | leftFault _ ht =>
    subst ht
    exact ⟨fun hr => absurd hr (State.raise_not_running _), fun _ => rfl⟩
  | rightFault _ _ hl ht =>
    subst ht
    exact ⟨fun hr => absurd hr (State.raise_not_running _), fun _ => hl.cyc⟩
  | completed hw _ hl _ hu ht =>
    subst ht
    have hcyc := hu.cyc.trans hl.cyc
    have hrun := (hu.status.trans hl.status).trans hs
    exact ⟨fun _ => ⟨congrArg (· + 1) hcyc, hw.below⟩, fun hr => absurd hrun hr⟩

/-- Settles O38: only ADVANCE leaves the engine running, and PC was at the old one or one before a jump's target, the
pre-decrement of R200, which ADVANCE undoes. -/
theorem pcMovesByAdvanceOrJumpOnly : Obligations.PcMovesByAdvanceOrJumpOnly := by
  intro s t h ht
  cases step_ends h with
  | atFetch h => exact absurd ht h.stopped
  | leftFault _ e => subst e; exact absurd ht (State.raise_not_running _)
  | rightFault _ _ _ e => subst e; exact absurd ht (State.raise_not_running _)
  | @completed w i j l u hw hi hl hj hu e =>
    subst e
    rcases hu.pc with hpc | ⟨x, rfl, -, hpc⟩
    · rcases hl.pc with hpc' | ⟨x, rfl, -, hpc'⟩
      · exact .inl (congrArg (· + 1#12) (hpc.trans hpc'))
      · refine .inr ⟨w, x, hw.cell, ?_, .inl hi⟩
        rw [State.advance_pc, hpc, State.decodeRight_pc, hpc', BitVec.sub_add_cancel]
    · refine .inr ⟨w, x, hw.cell, ?_, .inr hj⟩
      rw [State.advance_pc, hpc, BitVec.sub_add_cancel]

/-! ## Memory -/

/-- What the instruction in the slot `b` may have done to memory: nothing, or one write of a number by a STOR. -/
def SlotStores (c : Config) (b : Slot) (m m' : Memory) : Prop :=
  m' = m ∨ ∃ x v, decodeSlot c.opc b = .instr (.stor x) ∧ x.toNat < c.memSize ∧ m' = m.write x.toNat (.num v)

theorem Completes.slotStores {b : Slot} (h : Completes i s t) (hi : decodeSlot s.cfg.opc b = .instr i) :
    SlotStores s.cfg b s.mem t.mem := by
  rcases h.mem with hmem | ⟨x, rfl, hin, hmem⟩
  · exact .inl hmem
  · exact .inr ⟨x, s.ac, hi, hin, hmem⟩

/-- A step's memory is the old one after what the two slots of the executing word stored, left then right. -/
theorem step_mem (h : step s = .next t) :
    t.mem = s.mem ∨ ∃ w m, s.mem.read s.pc.toNat = .word w ∧
      SlotStores s.cfg (leftSlot w) s.mem m ∧ SlotStores s.cfg (rightSlot w) m t.mem := by
  cases step_ends h with
  | atFetch h => exact .inl h.mem
  | leftFault _ ht => subst ht; exact .inl rfl
  | rightFault hw hi hl ht =>
    subst ht
    exact .inr ⟨_, _, hw.cell, hl.slotStores hi, .inl rfl⟩
  | @completed w i j l u hw hi hl hj hu ht =>
    subst ht
    have hcfg : l.decodeRight.cfg = s.cfg := hl.cfg
    have hright := hu.slotStores (b := rightSlot w) (by rw [hcfg]; exact hj)
    rw [hcfg] at hright
    exact .inr ⟨w, l.mem, hw.cell, hl.slotStores hi, hright⟩

/-- What every write of a number inside the address space keeps of a memory, a step keeps. -/
theorem step_keeps_mem {P : Memory → Prop} (h : step s = .next t)
    (hwrite : ∀ m a v, a < s.cfg.memSize → P m → P (Memory.write m a (.num v))) (hP : P s.mem) : P t.mem := by
  have hslot {b : Slot} {m m' : Memory} (hm : SlotStores s.cfg b m m') (hPm : P m) : P m' := by
    rcases hm with rfl | ⟨x, v, -, hin, rfl⟩
    · exact hPm
    · exact hwrite m x.toNat v hin hPm
  rcases step_mem h with e | ⟨w, m, -, hl, hr⟩
  · rw [e]
    exact hP
  · exact hslot hr (hslot hl hP)

/-- A cell after a write of a number is that number, at the address written, or what it was. -/
theorem Memory.read_write_num (m : Memory) (b a : Nat) (v : Number) :
    (b = a ∧ (m.write b (.num v)).read a = .num v) ∨ (m.write b (.num v)).read a = m.read a := by
  by_cases hab : a = b
  · subst hab
    exact .inl ⟨rfl, Memory.read_write_of_ne_uninit m a Cell.noConfusion⟩
  · exact .inr (Memory.read_write_other m b a _ hab)

/-- Settles O36: a number is all that a program writes. -/
theorem programsCannotMakeInstructions : Obligations.ProgramsCannotMakeInstructions := by
  intro s t h
  refine ⟨fun a w => ?_, fun a => ?_⟩
  · refine step_keeps_mem (P := fun m => m.read a = .word w → s.mem.read a = .word w) h (fun m b v _ hm hr => ?_) id
    rcases m.read_write_num b a v with ⟨-, e⟩ | e
    · cases e.symm.trans hr
    · exact hm (e.symm.trans hr)
  · refine step_keeps_mem (P := fun m => m.read a = .uninit → s.mem.read a = .uninit) h (fun m b v _ hm hr => ?_) id
    rcases m.read_write_num b a v with ⟨-, e⟩ | e
    · cases e.symm.trans hr
    · exact hm (e.symm.trans hr)

/-- A cell that a slot changed is the target of the STOR in it, and holds a number. -/
theorem SlotStores.changed {c : Config} {b : Slot} {m m' : Memory} {a : Nat} (h : SlotStores c b m m')
    (hne : m'.read a ≠ m.read a) :
    ∃ x v, decodeSlot c.opc b = .instr (.stor x) ∧ x.toNat = a ∧ m'.read a = .num v := by
  rcases h with rfl | ⟨x, v, hd, -, rfl⟩
  · exact absurd rfl hne
  · rcases m.read_write_num x.toNat a v with ⟨hx, e⟩ | e
    · exact ⟨x, v, hd, hx, e⟩
    · exact absurd e hne

/-- Settles O37: the cell was changed by the right slot, or else by the left one and not again. -/
theorem onlyStorChangesMemory : Obligations.OnlyStorChangesMemory := by
  intro s t a h hne
  rcases step_mem h with e | ⟨w, m, hcell, hl, hr⟩
  · exact absurd (congrArg (Memory.read · a) e) hne
  · by_cases hright : t.mem.read a = m.read a
    · obtain ⟨x, v, hd, hx, hv⟩ := hl.changed (hright ▸ hne)
      exact ⟨w, x, hcell, hx, .inl hd, v, hright.trans hv⟩
    · obtain ⟨x, v, hd, hx, hv⟩ := hr.changed hright
      exact ⟨w, x, hcell, hx, .inr hd, v, hv⟩

/-! ## The invariant -/

theorem step_cyc_le (h : step s = .next t) (hs : s.cyc ≤ s.cfg.maxCycles) : t.cyc ≤ s.cfg.maxCycles := by
  obtain ⟨hrun, hstop⟩ := cycCountsCompletedWordCycles s t h
  by_cases ht : t.status = .running
  · obtain ⟨e, hlt⟩ := hrun ht
    omega
  · rwa [hstop ht]

/-- Settles O32: memory changes by writes inside the address space only, and CYC grows only below the ceiling. -/
theorem stepKeepsTheInvariant : Obligations.StepKeepsTheInvariant := by
  rintro s t ⟨hwf, hwithin, hcyc, -⟩ h
  unfold State.Inv
  rw [stepNeverWritesTheParameters s t h]
  refine ⟨?_, ?_, step_cyc_le h hcyc, step_phase h⟩
  · exact step_keeps_mem (P := fun m => m.wf = true) h (fun m a v _ => m.wf_write a _) hwf
  · exact step_keeps_mem (P := fun m => m.within s.cfg.memSize = true) h
      (fun m a v ha hm => m.within_write a _ _ hm ha) hwithin

theorem resetWith_inv (c : Config) : (State.resetWith c).Inv := ⟨rfl, rfl, Nat.zero_le _, rfl⟩

/-- Settles O33: memory is empty and CYC is zero. -/
theorem resetMeetsTheInvariant : Obligations.ResetMeetsTheInvariant :=
  ⟨resetWith_inv Config.default, resetWith_inv⟩

/-! ## The end of every run -/

/-- `n` word cycles are enough where fewer than `n` are left below the ceiling: each one that completes uses up one. -/
theorem runWords_stops (n : Nat) :
    ∀ s : State, s.status = .running → s.cfg.maxCycles - s.cyc < n → ∃ t, runWords n s = .next t ∧ t.Stopped := by
  induction n with
  | zero => intro s _ h; exact absurd h (Nat.not_lt_zero _)
  | succ n ih =>
    intro s hs hn
    obtain ⟨u, hu⟩ := step_answers hs
    rw [runWords, hu]
    by_cases hr : u.status = .running
    · obtain ⟨hcyc, hlt⟩ := (cycCountsCompletedWordCycles s u hu).1 hr
      rw [whileRunning_running _ hr]
      refine ih u hr ?_
      rw [stepNeverWritesTheParameters s u hu]
      omega
    · exact ⟨u, whileRunning_stopped _ hr, hr⟩

/-- Settles O40: below the ceiling there are MAX_CYCLES - CYC word cycles left, and the one after them stops. -/
theorem everyRunEnds : Obligations.EveryRunEnds := fun s hs =>
  runWords_stops _ s hs (Nat.lt_succ_self _)

end Sys2Proof.Machine
end

section
/-! PROOF. The decoder (30_encoding.md R86 to R88): the opcode field alone selects the row, the fields of the slot are its
operands, and decoding and encoding are inverse but for the ignored address bits of format N. -/

namespace Sys2Proof.Machine

variable {t : OpcodeTable} {b : Slot} {i : Instr} {o : Opcode}

/-! ## From the fields to the instruction -/

/-- Settles O44: every opcode of a well-formed table is found at its own row of R86. -/
theorem decodeGivesBackTheEncodedInstruction : Obligations.DecodeGivesBackTheEncodedInstruction :=
  fun _ i ht => decodeSlot_encodeSlot ht i

/-- A slot with the opcode and the address bits of an instruction is its encoding. -/
theorem encodeSlot_eq_of_fields (hop : i.opcode t = opcodeField b) (haddr : i.addrBits = addrField b) :
    encodeSlot t i = b := by
  rw [encodeSlot, hop, haddr, mkSlot_fields]

theorem decodeSlot_of_fields (ht : t.WF) (i : Instr) (hop : i.opcode t = opcodeField b)
    (haddr : i.addrBits = addrField b) : decodeSlot t b = .instr i := by
  rw [← encodeSlot_eq_of_fields hop haddr, decodeSlot_encodeSlot ht i]

/-- LOAD MQ is the last row but one of R86: the ten tried before it have other opcodes, and the address bits are not
looked at. -/
theorem decodeSlot_loadMq (ht : t.WF) (hb : opcodeField b = t.loadMq) : decodeSlot t b = .instr .loadMq := by
  have hne : t.patterns.Nodup := ht.2
  have hne' : t.patterns.reverse.Nodup := List.nodup_reverse.mpr hne
  simp only [OpcodeTable.patterns, List.reverse_cons, List.reverse_nil, List.nil_append, List.cons_append,
    List.nodup_cons, List.mem_cons, List.not_mem_nil, or_false, not_or] at hne hne'
  simp [decodeSlot, hb, hne, hne']

theorem mkDiscFields_fields (f : Addr) : mkDiscFields (fieldI f) (fieldJ f) (fieldK f) = f := by
  apply BitVec.eq_of_toNat_eq
  have := f.isLt
  simp only [mkDiscFields, fieldI, fieldJ, fieldK, BitVec.toNat_append, BitVec.extractLsb'_toNat]
  rw [← Nat.shiftLeft_add_eq_or_of_lt (b := _ % 2 ^ 4) (by omega), ← Nat.shiftLeft_add_eq_or_of_lt (by omega)]
  simp only [Nat.shiftLeft_eq, Nat.shiftRight_eq_div_pow]
  omega

/-- The three operands of DISC, as bits of the slot (R82). -/
theorem discFields_eq (b : Slot) :
    fieldI (addrField b) = b.extractLsb' 8 4 ∧ fieldJ (addrField b) = b.extractLsb' 4 4 ∧
    fieldK (addrField b) = b.extractLsb' 0 4 :=
  ⟨extractLsb'_extractLsb' b (by decide), extractLsb'_extractLsb' b (by decide), extractLsb'_extractLsb' b (by decide)⟩

theorem decodeSlot_disc (ht : t.WF) (hb : opcodeField b = t.disc) :
    decodeSlot t b = .instr (.disc (b.extractLsb' 8 4) (b.extractLsb' 4 4) (b.extractLsb' 0 4)) := by
  obtain ⟨hI, hJ, hK⟩ := discFields_eq b
  rw [← hI, ← hJ, ← hK]
  exact decodeSlot_of_fields ht _ hb.symm (mkDiscFields_fields (addrField b))

/-! ## From the decoded slot to the fields -/

/-- What a slot's decoding says of its fields: an instruction has the slot's opcode and, but for format N, the slot's
address bits; ILLEGAL has an opcode outside the table. -/
def AgreesWith (t : OpcodeTable) (b : Slot) : Decoded → Prop
  | .instr i => i.opcode t = opcodeField b ∧ (i ≠ .loadMq ∧ i ≠ .halt → i.addrBits = addrField b)
  | .illegal o => o = opcodeField b ∧ o ∉ t.patterns

/-- The rows of R86 in their order: DISC, the nine of format A, the two of format N, and everything else. -/
theorem decodeSlot_agreesWith (t : OpcodeTable) (b : Slot) : AgreesWith t b (decodeSlot t b) := by
  refine iteInduction (fun h => ⟨h.symm, fun _ => mkDiscFields_fields (addrField b)⟩) fun _ => ?_
  iterate 9
    refine iteInduction (fun h => ⟨h.symm, fun _ => rfl⟩) fun _ => ?_
  refine iteInduction (fun h => ⟨h.symm, fun hn => absurd rfl hn.1⟩) fun _ => ?_
  refine iteInduction (fun h => ⟨h.symm, fun hn => absurd rfl hn.2⟩) fun _ => ?_
  exact ⟨rfl, by simp [OpcodeTable.patterns, *]⟩

theorem agreesWith_of_decodeSlot {d : Decoded} (h : decodeSlot t b = d) : AgreesWith t b d :=
  h ▸ decodeSlot_agreesWith t b

/-- Settles O45: the opcode and the address bits are the two fields of the slot. -/
theorem encodeGivesBackTheDecodedSlot : Obligations.EncodeGivesBackTheDecodedSlot := by
  intro t b i h
  obtain ⟨hop, haddr⟩ := agreesWith_of_decodeSlot h
  exact ⟨hop, fun hn => encodeSlot_eq_of_fields hop (haddr hn)⟩

theorem opcode_mem_patterns (t : OpcodeTable) (i : Instr) : i.opcode t ∈ t.patterns := by
  cases i <;> simp [Instr.opcode, OpcodeTable.patterns]

theorem decodeSlot_illegal_iff : decodeSlot t b = .illegal o ↔ o = opcodeField b ∧ o ∉ t.patterns := by
  refine ⟨agreesWith_of_decodeSlot, ?_⟩
  rintro ⟨rfl, hout⟩
  rcases hd : decodeSlot t b with i | o
  · obtain ⟨hop, -⟩ := agreesWith_of_decodeSlot hd
    exact absurd (hop ▸ opcode_mem_patterns t i) hout
  · obtain ⟨rfl, -⟩ := agreesWith_of_decodeSlot hd
    rfl

/-- Settles O46: a row with all its operands from its fields is the row's encoding; format N has none. -/
theorem decodeFollowsTheOpcodeField : Obligations.DecodeFollowsTheOpcodeField := by
  intro t b ht
  have hrow (i : Instr) (haddr : i.addrBits = addrField b) (hb : opcodeField b = i.opcode t) :
      decodeSlot t b = .instr i := decodeSlot_of_fields ht i hb.symm haddr
  exact ⟨decodeSlot_disc ht, hrow (.loadNeg _) rfl, hrow (.add _) rfl, hrow (.sub _) rfl, hrow (.loadMqMem _) rfl,
    hrow (.mul _) rfl, hrow (.div _) rfl, hrow (.jumpPlus _) rfl, hrow (.sqrt _) rfl, hrow (.stor _) rfl,
    decodeSlot_loadMq ht, fun hb => decodeSlot_zero_opcode ht (hb.trans ht.1),
    fun hout => decodeSlot_illegal_iff.mpr ⟨rfl, hout⟩⟩

/-! ## The opcodes outside the table -/

/-- The opcode values of a table, as a set of numbers below 256. -/
def opcodeValues (t : OpcodeTable) : Finset (Fin 256) := (t.patterns.map BitVec.toFin).toFinset

theorem card_opcodeValues (ht : t.WF) : (opcodeValues t).card = 12 := by
  have hnodup : (t.patterns.map BitVec.toFin).Nodup :=
    ht.2.map fun _ _ h => BitVec.eq_of_toFin_eq h
  rw [opcodeValues, List.toFinset_card_of_nodup hnodup]
  rfl

theorem mem_opcodeValues (t : OpcodeTable) (o : Fin 256) : o ∈ opcodeValues t ↔ BitVec.ofFin o ∈ t.patterns := by
  simp only [opcodeValues, List.mem_toFinset, List.mem_map]
  exact ⟨fun ⟨p, hp, e⟩ => e ▸ hp, fun h => ⟨_, h, rfl⟩⟩

/-- Settles O47: the twelve opcode values are different, so their complement in 256 has 244. -/
theorem theOther244OpcodesAreIllegal : Obligations.TheOther244OpcodesAreIllegal := by
  intro t ht
  refine ⟨?_, fun b o => decodeSlot_illegal_iff⟩
  have hset :
      ((List.finRange 256).filter fun o => decide (BitVec.ofFin o ∉ t.patterns)).toFinset = (opcodeValues t)ᶜ := by
    ext o
    simp [mem_opcodeValues]
  rw [← List.toFinset_card_of_nodup ((List.nodup_finRange 256).filter _), hset, Finset.card_compl,
    card_opcodeValues ht, Fintype.card_fin]

/-- Settles O48: the fields of each slot are read off its digits, and its opcode is looked up in the default table. -/
theorem specSlotsDecode : Obligations.SpecSlotsDecode := by
  refine ⟨?_, ?_, ?_, ?_, ?_, ?_⟩ <;> decide

end Sys2Proof.Machine
end

section
/-! PROOF. The instructions that read no number: LOAD MQ (41_data_transfer.md R172), JUMP+ and HALT in a slot
(44_control.md R200, R201), with their frame (10_state.md R36). -/

namespace Sys2Proof.Machine

variable {s : State} {x : Addr}

/-- Settles O3: the address bits are no field of the one row that has LOAD MQ's opcode. -/
theorem loadMqCopiesMqToAc : Obligations.LoadMqCopiesMqToAc :=
  ⟨fun _ => rfl, fun t f ht => decodeSlot_loadMq ht (Laws.opcodeField_mkSlot t.loadMq f)⟩

/-- Settles O14: a zero opcode is HALT's, whatever the address bits. -/
theorem haltInASlotDoesNothing : Obligations.HaltInASlotDoesNothing :=
  ⟨fun _ => rfl, fun _ f ht => decodeSlot_zero_opcode ht (Laws.opcodeField_mkSlot 0#8 f)⟩

theorem exec_jumpPlus_taken (h : 0 ≤ s.ac) : exec (.jumpPlus x) s = .next { s with pc := x - 1#12 } :=
  congrArg Host.Outcome.next (if_pos ((numGe0_iff s.ac).mpr h))

theorem exec_jumpPlus_not_taken (h : s.ac < 0) : exec (.jumpPlus x) s = .next s :=
  congrArg Host.Outcome.next (if_neg fun hge => h.not_ge ((numGe0_iff s.ac).mp hge))

/-- Settles O13: JUMP+ tests the sign of AC, zero with the non-negative numbers. -/
theorem jumpPlusTestsTheSignOfAc : Obligations.JumpPlusTestsTheSignOfAc :=
  fun _ _ => ⟨exec_jumpPlus_taken, exec_jumpPlus_not_taken⟩

/-- Settles O15: each answers the state with at most one field written. -/
theorem registerOnlyInstructionsFrame : Obligations.RegisterOnlyInstructionsFrame := by
  rintro i s t (rfl | rfl | ⟨x, rfl⟩) h
  · cases h
    exact ⟨fun _ => rfl, rfl, rfl, rfl, rfl, rfl, rfl, rfl, rfl, rfl, fun hi => absurd rfl hi, fun _ => rfl⟩
  · cases h
    exact ⟨fun _ => rfl, rfl, rfl, rfl, rfl, rfl, rfl, rfl, rfl, rfl, fun _ => rfl, fun _ => rfl⟩
  · rcases lt_or_ge s.ac 0 with hac | hac
    · cases (exec_jumpPlus_not_taken hac).symm.trans h
      exact ⟨fun _ => rfl, rfl, rfl, rfl, rfl, rfl, rfl, rfl, rfl, rfl, fun _ => rfl, fun _ => rfl⟩
    · cases (exec_jumpPlus_taken hac).symm.trans h
      exact ⟨fun _ => rfl, rfl, rfl, rfl, rfl, rfl, rfl, rfl, rfl, rfl, fun _ => rfl, fun hi => absurd rfl (hi x)⟩

end Sys2Proof.Machine
end

section
/-! PROOF. DIV and SQRT (42_arithmetic.md R183, R184; 43_extensions.md R191), the two instructions with one operand that
can raise a fault of their own. -/

namespace Sys2Proof.Machine

variable {s t : State} {x : Addr} {v : Number} {k : Number → State → Except EngineFault State}

/-- An instruction that refuses the number it read is the state before with its fault taken (R218). -/
theorem State.withOperand_refused {f : EngineFault} (hin : x.toNat < s.cfg.memSize) (hcell : s.mem.read x.toNat = .num v)
    (hk : k v (s.noteAccess x (.num v)) = .error f) : s.withOperand x k = .next (faultState s f) := by
  rw [State.withOperand_num hin hcell, hk]
  rfl

/-! ## DIV -/

theorem exec_div_num (hin : x.toNat < s.cfg.memSize) (hcell : s.mem.read x.toNat = .num v) (hv : v ≠ 0) :
    exec (.div x) s =
      .next { s with mq := s.ac / v, ac := s.ac - v * (⌊s.ac / v⌋ : Number), mar := x, mbr := .num v } := by
  simp only [exec, execDiv]
  rw [State.withOperand_num hin hcell, if_neg hv, numMod_eq]
  rfl

/-- Settles O8: the quotient is exact, the remainder takes the floor of it, and only a zero divisor is refused. -/
theorem divQuotientAndFlooredRemainder : Obligations.DivQuotientAndFlooredRemainder := by
  intro s x
  refine ⟨fun v hin hcell hv => exec_div_num hin hcell hv, fun hin hcell => ?_, operandFaults_of_withOperand rfl⟩
  exact State.withOperand_refused hin hcell (if_pos rfl)

/-- The floored remainder is the divisor times the fractional part of the quotient. -/
theorem sub_mul_floor_div (a : Number) (hv : v ≠ 0) : a - v * (⌊a / v⌋ : Number) = v * Int.fract (a / v) := by
  rw [Int.fract, mul_sub, mul_div_cancel₀ a hv]

/-- Settles O9: the fractional part of the quotient is in `[0, 1)`, so the remainder is between 0 and the divisor. -/
theorem divResultsObeyTheDivisionLaws : Obligations.DivResultsObeyTheDivisionLaws := by
  intro s t x v hin hcell hv h
  cases (exec_div_num hin hcell hv).symm.trans h
  have hnonneg : 0 ≤ Int.fract (s.ac / v) := Int.fract_nonneg _
  have hlt : Int.fract (s.ac / v) < 1 := Int.fract_lt_one _
  refine ⟨div_mul_cancel₀ s.ac hv, ⟨⌊s.ac / v⌋, by ring⟩, fun hpos => ?_, fun hneg => ?_⟩
  · simp only [sub_mul_floor_div s.ac hv]
    exact ⟨mul_nonneg hpos.le hnonneg, mul_lt_of_lt_one_right hpos hlt⟩
  · simp only [sub_mul_floor_div s.ac hv]
    exact ⟨lt_mul_of_lt_one_right hneg hlt, mul_nonpos_of_nonpos_of_nonneg hneg.le hnonneg⟩

/-! ## SQRT -/

theorem exec_sqrt_num (hin : x.toNat < s.cfg.memSize) (hcell : s.mem.read x.toNat = .num v) (hv : 0 ≤ v) :
    exec (.sqrt x) s = .next { s with ac := numSqrt s.cfg.sqrtEps v, mar := x, mbr := .num v } := by
  simp only [exec, execSqrt]
  rw [State.withOperand_num hin hcell, if_neg hv.not_gt]
  rfl

theorem exec_sqrt_negative (hin : x.toNat < s.cfg.memSize) (hcell : s.mem.read x.toNat = .num v) (hv : v < 0) :
    exec (.sqrt x) s = .next (faultState s (.arithmeticError .sqrtNegative x)) :=
  State.withOperand_refused hin hcell (if_pos hv)

/-- Settles O11: `numSqrt` is inside the bound everywhere, and it is the root of a square. -/
theorem sqrtIsExactOrWithinTheBound : Obligations.SqrtIsExactOrWithinTheBound := by
  intro s x heps
  refine ⟨fun v hin hcell hv => ?_, fun v hin hcell hv => exec_sqrt_negative hin hcell hv,
    operandFaults_of_withOperand rfl⟩
  obtain ⟨hnonneg, hbound⟩ := numSqrt_within s.cfg.sqrtEps v heps hv
  refine ⟨_, exec_sqrt_num hin hcell hv, hnonneg, hbound, ?_⟩
  rintro q hq rfl
  exact numSqrt_mul_self s.cfg.sqrtEps q hq

/-- A SQRT that completes has left the root of the number in the cell. -/
theorem ac_of_exec_sqrt (hcell : s.mem.read x.toNat = .num v) (h : exec (.sqrt x) s = .next t)
    (ht : t.status = .running) : t.ac = numSqrt s.cfg.sqrtEps v := by
  rcases Nat.lt_or_ge x.toNat s.cfg.memSize with hin | hout
  · rcases lt_or_ge v 0 with hv | hv
    · cases (exec_sqrt_negative hin hcell hv).symm.trans h
      cases ht
    · cases (exec_sqrt_num hin hcell hv).symm.trans h
      rfl
  · cases ((operandFaults_of_withOperand rfl).1 hout).symm.trans h
    cases ht

/-- Settles O12: both results are `numSqrt` of the one number and the one error bound. -/
theorem sqrtDependsOnTheOperandOnly : Obligations.SqrtDependsOnTheOperandOnly := by
  intro s s' t t' x x' v hcfg _ _ hcell hcell' h h' ht ht'
  rw [ac_of_exec_sqrt hcell h ht, ac_of_exec_sqrt hcell' h' ht', hcfg]

end Sys2Proof.Machine
end

section
/-! PROOF. DISC (43_extensions.md R190): its three addresses exist in every memory of 16 cells or more (20_memory.md
R51), so each of its reads answers the number in the cell or the fault of the cell's kind. -/

namespace Sys2Proof.Machine

variable {s : State} {d i j k : DiscField} {a b c : Number} {f : EngineFault}

theorem discAddr_inside (hm : 16 ≤ s.cfg.memSize) (d : DiscField) : (d.setWidth 12).toNat < s.cfg.memSize := by
  rw [discAddr_toNat]
  exact d.isLt.trans_le hm

theorem State.memReadNum_discAddr_num (hm : 16 ≤ s.cfg.memSize) (hcell : s.mem.read d.toNat = .num a) :
    s.memReadNum (d.setWidth 12) = .ok (a, s.noteAccess (d.setWidth 12) (.num a)) :=
  State.memReadNum_num (discAddr_inside hm d) ((discAddr_toNat d).symm ▸ hcell)

theorem State.memReadNum_discAddr_fault (hm : 16 ≤ s.cfg.memSize)
    (hf : cellFault (s.mem.read d.toNat) (d.setWidth 12) = some f) : s.memReadNum (d.setWidth 12) = .error f := by
  rw [← discAddr_toNat d] at hf
  rcases hc : s.mem.read (d.setWidth 12).toNat with w | v | _ <;> rw [hc] at hf <;> cases hf
  · exact State.memReadNum_word (discAddr_inside hm d) hc
  · exact State.memReadNum_uninit (discAddr_inside hm d) hc

/-! ## The three reads -/

/-- An access before the read writes only MAR and MBR, which the read writes again. -/
theorem State.memReadNum_noteAccess_num (x : Addr) (o : Cell) (hm : 16 ≤ s.cfg.memSize)
    (hcell : s.mem.read d.toNat = .num a) :
    (s.noteAccess x o).memReadNum (d.setWidth 12) = .ok (a, s.noteAccess (d.setWidth 12) (.num a)) :=
  State.memReadNum_discAddr_num (s := s.noteAccess x o) hm hcell

theorem State.memReadNum_noteAccess_fault (x : Addr) (o : Cell) (hm : 16 ≤ s.cfg.memSize)
    (hf : cellFault (s.mem.read d.toNat) (d.setWidth 12) = some f) :
    (s.noteAccess x o).memReadNum (d.setWidth 12) = .error f :=
  State.memReadNum_discAddr_fault (s := s.noteAccess x o) hm hf

theorem State.readThree_fault_first (hm : 16 ≤ s.cfg.memSize)
    (hf : cellFault (s.mem.read i.toNat) (i.setWidth 12) = some f) : s.readThree i j k = .error f := by
  rw [State.readThree, State.memReadNum_discAddr_fault hm hf]

theorem State.readThree_fault_second (hm : 16 ≤ s.cfg.memSize) (hi : s.mem.read i.toNat = .num a)
    (hf : cellFault (s.mem.read j.toNat) (j.setWidth 12) = some f) : s.readThree i j k = .error f := by
  simp only [State.readThree, State.memReadNum_discAddr_num hm hi, State.memReadNum_noteAccess_fault _ _ hm hf]

theorem State.readThree_fault_third (hm : 16 ≤ s.cfg.memSize) (hi : s.mem.read i.toNat = .num a)
    (hj : s.mem.read j.toNat = .num b) (hf : cellFault (s.mem.read k.toNat) (k.setWidth 12) = some f) :
    s.readThree i j k = .error f := by
  simp only [State.readThree, State.memReadNum_discAddr_num hm hi, State.memReadNum_noteAccess_num _ _ hm hj,
    State.memReadNum_noteAccess_fault _ _ hm hf]

theorem State.readThree_num (hm : 16 ≤ s.cfg.memSize) (hi : s.mem.read i.toNat = .num a)
    (hj : s.mem.read j.toNat = .num b) (hk : s.mem.read k.toNat = .num c) :
    s.readThree i j k = .ok (a, b, c, s.noteAccess (k.setWidth 12) (.num c)) := by
  simp only [State.readThree, State.memReadNum_discAddr_num hm hi, State.memReadNum_noteAccess_num _ _ hm hj,
    State.memReadNum_noteAccess_num _ _ hm hk]

/-- A cell holds a number, or an operand read of it faults. -/
theorem num_or_cellFault (c : Cell) (x : Addr) : (∃ v, c = .num v) ∨ ∃ f, cellFault c x = some f := by
  cases c with
  | num v => exact .inl ⟨v, rfl⟩
  | word w => exact .inr ⟨_, rfl⟩
  | uninit => exact .inr ⟨_, rfl⟩

/-- Everything the three reads can answer: three numbers, or the fault of one of the three cells. -/
theorem State.readThree_cases (hm : 16 ≤ s.cfg.memSize) (i j k : DiscField) :
    (∃ a b c u, s.readThree i j k = .ok (a, b, c, u)) ∨
    ∃ d f, (d = i ∨ d = j ∨ d = k) ∧ cellFault (s.mem.read d.toNat) (d.setWidth 12) = some f ∧
      s.readThree i j k = .error f := by
  rcases num_or_cellFault (s.mem.read i.toNat) (i.setWidth 12) with ⟨a, hi⟩ | ⟨f, hf⟩
  · rcases num_or_cellFault (s.mem.read j.toNat) (j.setWidth 12) with ⟨b, hj⟩ | ⟨f, hf⟩
    · rcases num_or_cellFault (s.mem.read k.toNat) (k.setWidth 12) with ⟨c, hk⟩ | ⟨f, hf⟩
      · exact .inl ⟨a, b, c, _, State.readThree_num hm hi hj hk⟩
      · exact .inr ⟨k, f, .inr (.inr rfl), hf, State.readThree_fault_third hm hi hj hf⟩
    · exact .inr ⟨j, f, .inr (.inl rfl), hf, State.readThree_fault_second hm hi hf⟩
  · exact .inr ⟨i, f, .inl rfl, hf, State.readThree_fault_first hm hf⟩

/-! ## The instruction -/

theorem exec_disc_ok {u : State} (h : s.readThree i j k = .ok (a, b, c, u)) :
    exec (.disc i j k) s = .next { u with ac := b * b - 4 * a * c } := by
  simp only [exec, execDisc, h]
  rfl

theorem exec_disc_error (h : s.readThree i j k = .error f) : exec (.disc i j k) s = .next (faultState s f) := by
  simp only [exec, execDisc, h]
  rfl

/-- Settles O10: the reads are tried in the order of the fields, and the first fault is the instruction's. -/
theorem discComputesTheDiscriminant : Obligations.DiscComputesTheDiscriminant := by
  intro s i j k hm
  refine ⟨fun a b c hi hj hk => ?_, fun f hf => ?_, fun a f hi hf => ?_, fun a b f hi hj hf => ?_⟩
  · exact exec_disc_ok (State.readThree_num hm hi hj hk)
  · exact exec_disc_error (State.readThree_fault_first hm hf)
  · exact exec_disc_error (State.readThree_fault_second hm hi hf)
  · exact exec_disc_error (State.readThree_fault_third hm hi hj hf)

end Sys2Proof.Machine
end

section
/-! PROOF. What an instruction may write and raise: every completion field by field and every fault (40_cycle.md R152),
and from them the columns AC and MQ of 10_state.md R36, the fault table of 60_exceptions.md R210 and R218, and the
integers of 42_arithmetic.md R184 (c). -/

namespace Sys2Proof.Machine

variable {s t : State} {x : Addr} {i : Instr} {f : EngineFault} {k : Number → State → Except EngineFault State}

/-! ## Everything an instruction can answer, field by field -/

/-- The state in which an instruction completes from `s`, with the conditions on the cells it read. -/
inductive Effect (s : State) : Instr → State → Prop where
  | halt : Effect s .halt s
  | loadMq : Effect s .loadMq { s with ac := s.mq }
  | loadNeg {x : Addr} {v : Number} (hcell : s.mem.read x.toNat = .num v) :
      Effect s (.loadNeg x) { s with ac := -v, mar := x, mbr := .num v }
  | loadMqMem {x : Addr} {v : Number} (hcell : s.mem.read x.toNat = .num v) :
      Effect s (.loadMqMem x) { s with mq := v, mar := x, mbr := .num v }
  | add {x : Addr} {v : Number} (hcell : s.mem.read x.toNat = .num v) :
      Effect s (.add x) { s with ac := s.ac + v, mar := x, mbr := .num v }
  | sub {x : Addr} {v : Number} (hcell : s.mem.read x.toNat = .num v) :
      Effect s (.sub x) { s with ac := s.ac - v, mar := x, mbr := .num v }
  | mul {x : Addr} {v : Number} (hcell : s.mem.read x.toNat = .num v) :
      Effect s (.mul x) { s with ac := v, mq := v * s.mq, mar := x, mbr := .num v }
  | div {x : Addr} {v : Number} (hcell : s.mem.read x.toNat = .num v) (hv : v ≠ 0) :
      Effect s (.div x) { s with mq := s.ac / v, ac := numMod s.ac v, mar := x, mbr := .num v }
  | sqrt {x : Addr} {v : Number} (hcell : s.mem.read x.toNat = .num v) (hv : ¬ v < 0) :
      Effect s (.sqrt x) { s with ac := numSqrt s.cfg.sqrtEps v, mar := x, mbr := .num v }
  | disc {i j k : DiscField} {a b c : Number} (hi : s.mem.read i.toNat = .num a) (hj : s.mem.read j.toNat = .num b)
      (hk : s.mem.read k.toNat = .num c) :
      Effect s (.disc i j k) { s with ac := b * b - 4 * a * c, mar := k.setWidth 12, mbr := .num c }
  | jumpTaken {x : Addr} (hac : 0 ≤ s.ac) : Effect s (.jumpPlus x) { s with pc := x - 1#12 }
  | jumpNotTaken {x : Addr} (hac : s.ac < 0) : Effect s (.jumpPlus x) s
  | stor {x : Addr} (hin : x.toNat < s.cfg.memSize) :
      Effect s (.stor x) { s with mar := x, mbr := .num s.ac, mem := s.mem.write x.toNat (.num s.ac) }

/-- The answers of an instruction: a fault the table of R210 gives it, taken in the state before, or its effect. The table
counts on a memory of 16 cells. -/
def Answers (i : Instr) (s t : State) : Prop :=
  (∃ f, (16 ≤ s.cfg.memSize → mayRaise i f) ∧ t = s.raise f) ∨ Effect s i t

/-- The three faults of an operand read (R58, R59). -/
def ReadFault (x : Addr) (f : EngineFault) : Prop :=
  f = .addressError x ∨ f = .uninitialisedRead x ∨ f = .cellKindError .operand x

theorem State.readFault_of_memReadNum (h : s.memReadNum x = .error f) : ReadFault x f := by
  rcases s.memReadNum_cases x with ⟨-, e⟩ | ⟨-, -, e⟩ | ⟨w, -, -, e⟩ | ⟨v, -, -, e⟩ <;> cases e.symm.trans h
  · exact .inl rfl
  · exact .inr (.inl rfl)
  · exact .inr (.inr rfl)

theorem answers_of_withOperand (hexec : exec i s = s.withOperand x k) (h : exec i s = .next t)
    (hread : ∀ f, ReadFault x f → mayRaise i f) (hown : ∀ v u f, k v u = .error f → mayRaise i f)
    (hok : ∀ v u, s.mem.read x.toNat = .num v → k v (s.noteAccess x (.num v)) = .ok u → Effect s i u) :
    Answers i s t := by
  rw [hexec] at h
  rcases s.withOperand_cases x k with ⟨f, hf, e⟩ | ⟨v, -, hcell, e⟩
  · cases e.symm.trans h
    exact .inl ⟨f, fun _ => hread f (State.readFault_of_memReadNum hf), rfl⟩
  · rw [e] at h
    rcases hu : k v (s.noteAccess x (.num v)) with f | u <;> rw [hu] at h <;> cases h
    · exact .inl ⟨f, fun _ => hown v _ f hu, rfl⟩
    · exact .inr (hok v _ hcell hu)

/-- An operand read that is followed by no fault of the instruction's own. -/
theorem answers_of_withOperand_ok {g : Number → State → State}
    (hexec : exec i s = s.withOperand x fun v u => .ok (g v u)) (h : exec i s = .next t)
    (hread : ∀ f, ReadFault x f → mayRaise i f)
    (hok : ∀ v, s.mem.read x.toNat = .num v → Effect s i (g v (s.noteAccess x (.num v)))) : Answers i s t :=
  answers_of_withOperand hexec h hread (fun _ _ _ e => nomatch e) fun v _ hcell e => Except.ok.inj e ▸ hok v hcell

theorem readFault_of_cellFault {c : Cell} (h : cellFault c x = some f) :
    f = .uninitialisedRead x ∨ f = .cellKindError .operand x := by
  cases c <;> cases h
  · exact .inr rfl
  · exact .inl rfl

theorem exec_disc_answers {i j k : DiscField} (h : exec (.disc i j k) s = .next t) : Answers (.disc i j k) s t := by
  rcases hr : s.readThree i j k with f | ⟨a, b, c, u⟩
  · cases (exec_disc_error hr).symm.trans h
    refine .inl ⟨f, fun hm => ?_, rfl⟩
    rcases State.readThree_cases hm i j k with ⟨_, _, _, _, e⟩ | ⟨d, g, hd, hg, e⟩ <;> cases e.symm.trans hr
    exact ⟨d, hd, readFault_of_cellFault hg⟩
  · obtain ⟨hi, hj, hk, rfl⟩ := State.readThree_ok hr
    cases (exec_disc_ok hr).symm.trans h
    exact .inr (.disc hi hj hk)

theorem exec_jumpPlus_answers (h : exec (.jumpPlus x) s = .next t) : Answers (.jumpPlus x) s t := by
  rcases lt_or_ge s.ac 0 with hac | hac
  · cases (exec_jumpPlus_not_taken hac).symm.trans h
    exact .inr (.jumpNotTaken hac)
  · cases (exec_jumpPlus_taken hac).symm.trans h
    exact .inr (.jumpTaken hac)

theorem exec_stor_answers (h : exec (.stor x) s = .next t) : Answers (.stor x) s t := by
  rcases Nat.lt_or_ge x.toNat s.cfg.memSize with hin | hout
  · cases (exec_stor_inside hin).symm.trans h
    exact .inr (.stor hin)
  · cases (exec_stor_outside hout).symm.trans h
    exact .inl ⟨_, fun _ => rfl, rfl⟩

theorem exec_answers_cases (h : exec i s = .next t) : Answers i s t := by
  cases i with
  | halt => cases h; exact .inr .halt
  | loadMq => cases h; exact .inr .loadMq
  | loadNeg x => exact answers_of_withOperand_ok rfl h (fun _ => id) fun _ => .loadNeg
  | loadMqMem x => exact answers_of_withOperand_ok rfl h (fun _ => id) fun _ => .loadMqMem
  | add x => exact answers_of_withOperand_ok rfl h (fun _ => id) fun _ => .add
  | sub x => exact answers_of_withOperand_ok rfl h (fun _ => id) fun _ => .sub
  | mul x => exact answers_of_withOperand_ok rfl h (fun _ => id) fun _ => .mul
  | div x =>
    refine answers_of_withOperand rfl h (fun f hf => ?_) (fun v u f e => ?_) fun v u hcell e => ?_
    · exact hf.imp_right (Or.imp_right .inl)
    · split at e <;> cases e
      exact .inr (.inr (.inr rfl))
    · split at e <;> cases e
      exact .div hcell ‹_›
  | sqrt x =>
    refine answers_of_withOperand rfl h (fun f hf => ?_) (fun v u f e => ?_) fun v u hcell e => ?_
    · exact hf.imp_right (Or.imp_right .inl)
    · split at e <;> cases e
      exact .inr (.inr (.inr rfl))
    · split at e <;> cases e
      exact .sqrt hcell ‹_›
  | disc i j k => exact exec_disc_answers h
  | jumpPlus x => exact exec_jumpPlus_answers h
  | stor x => exact exec_stor_answers h

theorem Effect.status (h : Effect s i t) : t.status = s.status := by
  cases h <;> rfl

/-! ## Faults -/

/-- Settles O17: the state with a fault taken is `faultState`, and an effect leaves STATUS alone. -/
theorem aFaultingInstructionWritesOnlyStatus : Obligations.AFaultingInstructionWritesOnlyStatus := by
  intro i s t h
  rcases exec_answers_cases h with ⟨f, -, rfl⟩ | he
  · exact .inr ⟨f, rfl⟩
  · exact .inl he.status

/-- Settles O18: STATUS shows the one fault that was taken, and the half of the phase it was taken in. -/
theorem eachInstructionRaisesOnlyItsFaults : Obligations.EachInstructionRaisesOnlyItsFaults := by
  intro i s t f half ⟨hmem, _⟩ hs h ht
  rcases exec_answers_cases h with ⟨g, hg, rfl⟩ | he
  · cases ht
    exact ⟨hg (by omega), rfl⟩
  · cases ht.symm.trans (he.status.trans hs)

/-! ## The frame of the memory readers -/

theorem Effect.ac (h : Effect s i t) (hw : writesAc i = false) : t.ac = s.ac := by
  cases h with
  | halt | loadMqMem | jumpTaken | jumpNotTaken | stor => rfl
  | loadMq | loadNeg | add | sub | mul | div | sqrt | disc => cases hw

theorem Effect.mq (h : Effect s i t) (hw : writesMq i = false) : t.mq = s.mq := by
  cases h with
  | halt | loadMq | loadNeg | add | sub | sqrt | disc | jumpTaken | jumpNotTaken | stor => rfl
  | loadMqMem | mul | div => cases hw

/-- A reader of memory writes neither memory nor PC, IR, IBR, CYC or the parameters. -/
theorem Effect.of_readsMemory (h : Effect s i t) (hi : readsMemory i = true) :
    t.mem = s.mem ∧ t.pc = s.pc ∧ t.ir = s.ir ∧ t.ibr = s.ibr ∧ t.cyc = s.cyc ∧ t.cfg = s.cfg := by
  cases h with
  | loadNeg | loadMqMem | add | sub | mul | div | sqrt | disc => exact ⟨rfl, rfl, rfl, rfl, rfl, rfl⟩
  | halt | loadMq | jumpTaken | jumpNotTaken | stor => cases hi

/-- Settles O16: a fault writes none of these fields, and an effect those the table gives it. -/
theorem memoryReadersFrame : Obligations.MemoryReadersFrame := by
  intro i s t hi h
  rcases exec_answers_cases h with ⟨f, -, rfl⟩ | he
  · exact ⟨fun _ => rfl, rfl, rfl, rfl, rfl, rfl, fun _ => rfl, fun _ => rfl, fun _ => ⟨rfl, rfl, rfl, rfl⟩⟩
  · obtain ⟨hmem, hpc, hir, hibr, hcyc, hcfg⟩ := he.of_readsMemory hi
    exact ⟨fun a => by rw [hmem], hpc, hir, hibr, hcyc, hcfg, he.ac, he.mq, fun hne => absurd he.status hne⟩

/-! ## Integers -/

/-- The integers among the numbers: a subring, closed under all that ADD, SUB, MUL and DISC do. -/
abbrev integers : Subring Number := (Int.castRingHom Rat).range

theorem mem_integers_iff (v : Number) : v ∈ integers ↔ v.den = 1 := by
  constructor
  · rintro ⟨n, rfl⟩
    exact Rat.den_intCast n
  · exact fun h => ⟨v.num, (Rat.den_eq_one_iff v).mp h⟩

theorem AllIntegers.effect (h : AllIntegers s) (he : Effect s i t) (hdiv : ∀ x, i ≠ .div x)
    (hsqrt : ∀ x, i ≠ .sqrt x) : AllIntegers t := by
  obtain ⟨hac, hmq, hmem⟩ := h
  simp only [AllIntegers, ← mem_integers_iff] at hac hmq hmem ⊢
  cases he with
  | halt => exact ⟨hac, hmq, hmem⟩
  | loadMq => exact ⟨hmq, hmq, hmem⟩
  | loadNeg hcell => exact ⟨neg_mem (hmem _ _ hcell), hmq, hmem⟩
  | loadMqMem hcell => exact ⟨hac, hmem _ _ hcell, hmem⟩
  | add hcell => exact ⟨add_mem hac (hmem _ _ hcell), hmq, hmem⟩
  | sub hcell => exact ⟨sub_mem hac (hmem _ _ hcell), hmq, hmem⟩
  | mul hcell => exact ⟨hmem _ _ hcell, mul_mem (hmem _ _ hcell) hmq, hmem⟩
  | div => exact absurd rfl (hdiv _)
  | sqrt => exact absurd rfl (hsqrt _)
  | disc hi hj hk =>
    have hfour : (4 : Number) ∈ integers := ofNat_mem integers 4
    have hb := hmem _ _ hj
    exact ⟨sub_mem (mul_mem hb hb) (mul_mem (mul_mem hfour (hmem _ _ hi)) (hmem _ _ hk)), hmq, hmem⟩
  | jumpTaken => exact ⟨hac, hmq, hmem⟩
  | jumpNotTaken => exact ⟨hac, hmq, hmem⟩
  | @stor x hin =>
    refine ⟨hac, hmq, fun a v hv => ?_⟩
    rcases s.mem.read_write_num x.toNat a s.ac with ⟨-, e⟩ | e
    · cases e.symm.trans hv
      exact hac
    · exact hmem a v (e.symm.trans hv)

/-- Settles O42: a fault writes no number, and no effect but those of DIV and SQRT leaves the integers. -/
theorem integersStayIntegers : Obligations.IntegersStayIntegers := by
  intro i s t hdiv hsqrt hs h
  rcases exec_answers_cases h with ⟨f, -, rfl⟩ | he
  · exact hs
  · exact hs.effect he hdiv hsqrt

end Sys2Proof.Machine
end

section
/-! PROOF. Where the word cycle stops: the statuses without a step (10_state.md R30), the two sentinels (40_cycle.md R142),
the ceiling (R146) and an opcode outside the table (R152; 60_exceptions.md R215). -/

namespace Sys2Proof.Machine

variable {s t : State} {w : Word} {i : Instr} {o : Opcode}

/-- Settles O26: `stepWord` is defined where STATUS is RUNNING. -/
theorem onlyRunningHasAStep : Obligations.OnlyRunningHasAStep := fun _ => step_notRunning

/-- Settles O22: both tests come before the fetch, that of HALT_PC first. -/
theorem sentinelsHaltBeforeTheFetch : Obligations.SentinelsHaltBeforeTheFetch := by
  intro s hs
  exact ⟨fun hend => step_stopped hs (State.fetchWord_end hend),
    fun hend hroots => step_stopped hs (State.fetchWord_noRoots hend hroots)⟩

/-- Settles O25: the ceiling is tested on the word that was fetched, with its access noted. -/
theorem cycleCeilingFaults : Obligations.CycleCeilingFaults := by
  intro s w hs hend hroots hin hcell hw hmax
  exact step_stopped hs (State.fetchWord_ceiling hend hroots hin hcell hw hmax)

theorem State.execHalf_of_illegal (h : decodeSlot s.cfg.opc (mkSlot s.ir s.mar) = .illegal o) :
    s.execHalf = .next (s.raise (.illegalInstruction o)) := by
  rw [State.execHalf, h]

theorem step_of_left_illegal (hready : ReadyToExecute s w) (ho : decodeSlot s.cfg.opc (leftSlot w) = .illegal o) :
    step s = .next ((afterDecodeLeft s w).raise (.illegalInstruction o)) := by
  have hleft : (afterDecodeLeft s w).execHalf = .next ((afterDecodeLeft s w).raise (.illegalInstruction o)) :=
    State.execHalf_of_illegal (by rw [afterDecodeLeft_slot]; exact ho)
  rw [step_eq, State.stepWord_eq hready.running hready.fetches, State.fetched_decodeLeft, hleft,
    whileRunning_stopped _ (State.raise_not_running _)]

theorem step_of_right_illegal (hready : ReadyToExecute s w) (hi : decodeSlot s.cfg.opc (leftSlot w) = .instr i)
    (hleft : exec i (afterDecodeLeft s w) = .next t) (ht : t.status = .running)
    (ho : decodeSlot s.cfg.opc (rightSlot w) = .illegal o) :
    step s = .next ((afterDecodeRight t w).raise (.illegalInstruction o)) := by
  have hc : Completes i (afterDecodeLeft s w) t := .of_running hleft ht
  have hcfg : (afterDecodeRight t w).cfg = s.cfg := hc.cfg
  have hright : (afterDecodeRight t w).execHalf = .next ((afterDecodeRight t w).raise (.illegalInstruction o)) :=
    State.execHalf_of_illegal (by rw [afterDecodeRight_slot, hcfg]; exact ho)
  rw [step_eq_leftInstr hready hi, hleft, whileRunning_running _ ht, decodeRight_eq_afterDecodeRight hc, hright,
    whileRunning_stopped _ (State.raise_not_running _)]

/-- Settles O21: DECODE-LEFT and DECODE-RIGHT have set the phase, and with it the half, when the opcode is looked up. -/
theorem illegalOpcodeFaultsInItsHalf : Obligations.IllegalOpcodeFaultsInItsHalf := by
  intro s w o hready
  exact ⟨fun ho => step_of_left_illegal hready ho,
    fun i t hi ho hleft ht => step_of_right_illegal hready hi hleft ht ho⟩

end Sys2Proof.Machine
end

section
/-! PROOF. Three word cycles written out: JUMP+ alone (44_control.md R200), the jump shadow and the latched right slot
(70_reset_and_hazards.md R257, R256). -/

namespace Sys2Proof.Machine

variable {s : State} {w : Word} {x y : Addr} {v : Number}

/-! ## The slots of a word put together from them -/

@[simp] theorem leftSlot_mkWord (l r : Slot) : leftSlot (mkWord l r) = l := BitVec.extractLsb'_append_eq_left

@[simp] theorem rightSlot_mkWord (l r : Slot) : rightSlot (mkWord l r) = r := BitVec.extractLsb'_append_eq_right

/-- Two opcodes, each with its address, are the word of two slots. -/
theorem append_fields_eq_mkWord (o p : Opcode) (x y : Addr) : o ++ x ++ p ++ y = mkWord (mkSlot o x) (mkSlot p y) := by
  rw [mkWord, mkSlot, mkSlot, BitVec.append_assoc, BitVec.cast_eq]

theorem decodeSlot_left_of_pair {t : OpcodeTable} {i : Instr} {r : Slot} (ht : t.WF)
    (hw : w = mkWord (encodeSlot t i) r) : decodeSlot t (leftSlot w) = .instr i := by
  rw [hw, leftSlot_mkWord, decodeSlot_encodeSlot ht]

theorem decodeSlot_right_of_pair {t : OpcodeTable} {j : Instr} {l : Slot} (ht : t.WF)
    (hw : w = mkWord l (encodeSlot t j)) : decodeSlot t (rightSlot w) = .instr j := by
  rw [hw, rightSlot_mkWord, decodeSlot_encodeSlot ht]

/-! ## JUMP+ with zeros on the right -/

/-- Settles O28: the right slot is HALT in a slot, and ADVANCE undoes the pre-decrement of a taken jump. -/
theorem jumpPlusLandsOnItsTarget : Obligations.JumpPlusLandsOnItsTarget := by
  intro s w x hc hready hw
  have hleft : decodeSlot s.cfg.opc (leftSlot w) = .instr (.jumpPlus x) := decodeSlot_left_of_pair hc hw
  have hright : decodeSlot s.cfg.opc (rightSlot w) = .instr .halt := by
    have hslot : rightSlot w = 0#20 := hw ▸ rightSlot_mkWord _ 0#20
    exact decodeSlot_zero_opcode hc (hslot ▸ rfl)
  have hs : s.status = .running := hready.running
  rcases lt_or_ge s.ac 0 with hac | hac
  · exact ⟨_, step_of_running_halves hready hleft (exec_jumpPlus_not_taken hac) hs hright rfl hs, hs, rfl, rfl, rfl,
      fun hge => absurd hac hge.not_gt, fun _ => rfl⟩
  · exact ⟨_, step_of_running_halves hready hleft (exec_jumpPlus_taken hac) hs hright rfl hs, hs, rfl, rfl, rfl,
      fun _ => BitVec.sub_add_cancel x 1#12, fun hlt => absurd hac hlt.not_ge⟩

/-! ## The jump shadow -/

/-- Settles O29: the jump has written PC and nothing else when the ADD on the right executes. -/
theorem takenJumpDoesNotCancelTheRightSlot : Obligations.TakenJumpDoesNotCancelTheRightSlot := by
  intro s w x y v hc hready hw hac hin hcell
  rw [append_fields_eq_mkWord] at hw
  have hs : s.status = .running := hready.running
  have hleft : decodeSlot s.cfg.opc (leftSlot w) = .instr (.jumpPlus x) := decodeSlot_left_of_pair hc hw
  have hright : decodeSlot s.cfg.opc (rightSlot w) = .instr (.add y) := decodeSlot_right_of_pair hc hw
  exact ⟨_, step_of_running_halves hready hleft (exec_jumpPlus_taken hac) hs hright (exec_add_num hin hcell) hs,
    hs, rfl, BitVec.sub_add_cancel x 1#12⟩

/-! ## The latched right slot -/

/-- Settles O30: the ADD comes from IBR, so the number now in the cell at PC matters only to the next fetch. -/
theorem rightSlotIsLatched : Obligations.RightSlotIsLatched := by
  intro s w y v hc hready hw hy hin hcell
  rw [append_fields_eq_mkWord] at hw
  have ⟨hs, hend, hroots, hpc, _⟩ := hready
  have hleft : decodeSlot s.cfg.opc (leftSlot w) = .instr (.stor s.pc) := decodeSlot_left_of_pair hc hw
  have hright : decodeSlot s.cfg.opc (rightSlot w) = .instr (.add y) := decodeSlot_right_of_pair hc hw
  have hcell' : (s.mem.write s.pc.toNat (.num s.ac)).read y.toNat = .num v := by
    rw [Memory.read_write_other _ _ _ _ fun e => hy (BitVec.eq_of_toNat_eq e), hcell]
  have hstored : (s.mem.write s.pc.toNat (.num s.ac)).read s.pc.toNat = .num s.ac :=
    Memory.read_write_of_ne_uninit s.mem s.pc.toNat Cell.noConfusion
  refine ⟨_, step_of_running_halves hready hleft (exec_stor_inside hpc) hs hright (exec_add_num hin hcell') hs,
    hs, rfl, hstored, ?_⟩
  exact step_fetchFault hs hend hroots (State.memReadWord_num hpc hstored)

end Sys2Proof.Machine
end

section
/-! PROOF. Two other readings of the word cycle: one phase a transition (40_cycle.md R140; 10_state.md R35), and MAR, IR, IBR
and MBR as bookkeeping that no result depends on (10_state.md R22, R26, R29). -/

namespace Sys2Proof.Machine

/-! ## Phase by phase -/

section Phases

variable {s t : State} {w : Word} {n : Nat} {o : Host.Outcome State Fault Refusal}
  {k k' : State → Host.Outcome State Fault Refusal}

/-- Only what `k` does with a RUNNING state matters. -/
theorem whileRunning_congr (h : ∀ t, t.status = .running → k t = k' t) : whileRunning o k = whileRunning o k' := by
  cases o with
  | next t =>
    by_cases ht : t.status = .running
    · rw [whileRunning_running _ ht, whileRunning_running _ ht, h t ht]
    · rw [whileRunning_stopped _ ht, whileRunning_stopped _ ht]
  | fault | refused => rfl

theorem whileRunning_assoc : whileRunning (whileRunning o k) k' = whileRunning o fun t => whileRunning (k t) k' := by
  cases o with
  | next t =>
    by_cases ht : t.status = .running
    · rw [whileRunning_running _ ht, whileRunning_running _ ht]
    · rw [whileRunning_stopped _ ht, whileRunning_stopped _ ht, whileRunning_stopped _ ht]
  | fault | refused => rfl

theorem runPhases_of_next (h : s.stepPhase = .next t) (ht : t.status = .running) :
    runPhases (n + 1) s = runPhases n t := by
  rw [runPhases, h, whileRunning_running _ ht]

/-- EXECUTE-RIGHT and ADVANCE. -/
theorem runPhases_executeRight (hs : s.status = .running) (hp : s.phase = .executeRight) :
    runPhases 2 s = whileRunning s.execHalf fun u => .next u.advance := by
  have hphase : s.stepPhase = whileRunning s.execHalf fun t => .next { t with phase := .advance } := by
    rw [State.stepPhase, if_pos hs, hp]
  rw [runPhases, hphase, whileRunning_assoc]
  refine whileRunning_congr fun u hu => ?_
  have hadvance : State.stepPhase { u with phase := .advance } = .next u.advance := if_pos hu
  refine (whileRunning_running (t := { u with phase := .advance }) _ hu).trans ?_
  rw [runPhases_of_next hadvance hu, runPhases]

/-- EXECUTE-LEFT, DECODE-RIGHT and the two phases after it. -/
theorem runPhases_executeLeft (hs : s.status = .running) (hp : s.phase = .executeLeft) :
    runPhases 4 s = whileRunning s.execHalf fun t => whileRunning t.decodeRight.execHalf fun u => .next u.advance := by
  have hphase : s.stepPhase = whileRunning s.execHalf fun t => .next { t with phase := .decodeRight } := by
    rw [State.stepPhase, if_pos hs, hp]
  rw [runPhases, hphase, whileRunning_assoc]
  refine whileRunning_congr fun t ht => ?_
  have hdecode : State.stepPhase { t with phase := .decodeRight } = .next t.decodeRight := if_pos ht
  refine (whileRunning_running (t := { t with phase := .decodeRight }) _ ht).trans ?_
  rw [runPhases_of_next hdecode ht, runPhases_executeRight (s := t.decodeRight) ht rfl]

/-- FETCH that goes on, then DECODE-LEFT, which finds the word in MBR. -/
theorem runPhases_fetched (hs : s.status = .running) (hp : s.phase = .fetch) (hw : s.Fetches w) :
    runPhases 6 s = runPhases 4 ((s.fetched w).decodeLeft w) := by
  have hfetch : s.stepPhase = .next (s.fetched w) := by
    rw [State.stepPhase, if_pos hs, hp]
    simp only [hw.fetchWord]
  have hdecode : (s.fetched w).stepPhase = .next ((s.fetched w).decodeLeft w) := if_pos hs
  rw [runPhases_of_next hfetch hs, runPhases_of_next hdecode hs]

/-- Settles O31: each phase goes on while the engine runs, and the word cycle does the same with their composition. -/
theorem phaseStepsMakeTheWordCycle : Obligations.PhaseStepsMakeTheWordCycle := by
  intro s hphase
  by_cases hs : s.status = .running
  · rcases s.fetchWord_cases with ⟨t, e, ht⟩ | ⟨w, -, hw⟩
    · have hfetch : s.stepPhase = .next t := by
        rw [State.stepPhase, if_pos hs, hphase]
        simp only [e]
      rw [step_stopped hs e, runPhases, hfetch, whileRunning_stopped _ ht.stopped]
    · rw [runPhases_fetched hs hphase hw, runPhases_executeLeft (s := (s.fetched w).decodeLeft w) hs rfl, step_eq,
        State.stepWord_eq hs hw]
  · rw [step_notRunning hs, runPhases, State.stepPhase, if_neg hs, whileRunning_fault]

end Phases

/-! ## The bookkeeping registers -/

section Bookkeeping

variable {s s' : State} {w : Word}

/-- The state with MAR, IR, IBR, MBR and the sequencing state of another. -/
def State.withBooksOf (s b : State) : State :=
  { s with mar := b.mar, ir := b.ir, ibr := b.ibr, mbr := b.mbr, phase := b.phase }

theorem SameButBookkeeping.eq_withBooksOf (h : SameButBookkeeping s s') : s' = s.withBooksOf s' := by
  obtain ⟨hpc, hac, hmq, hmem, hstatus, hcyc, hcfg⟩ := h
  simp only [State.withBooksOf, hpc, hac, hmq, hmem, hstatus, hcyc, hcfg]

theorem sameButBookkeeping_refl (t : State) : SameButBookkeeping t t := ⟨rfl, rfl, rfl, rfl, rfl, rfl, rfl⟩

theorem sameButBookkeeping_withBooksOf (s b : State) : SameButBookkeeping s (s.withBooksOf b) :=
  ⟨rfl, rfl, rfl, rfl, rfl, rfl, rfl⟩

theorem SameButBookkeeping.halt (h : SameButBookkeeping s s') (r : HaltReason) :
    SameButBookkeeping (s.halt r) (s'.halt r) := by
  obtain ⟨hpc, hac, hmq, hmem, -, hcyc, hcfg⟩ := h
  exact ⟨hpc, hac, hmq, hmem, rfl, hcyc, hcfg⟩

theorem SameButBookkeeping.raiseIn (h : SameButBookkeeping s s') (half : Half) (f : EngineFault) :
    SameButBookkeeping (s.raiseIn half f) (s'.raiseIn half f) := by
  obtain ⟨hpc, hac, hmq, hmem, -, hcyc, hcfg⟩ := h
  exact ⟨hpc, hac, hmq, hmem, rfl, hcyc, hcfg⟩

theorem SameButBookkeeping.noteAccess (h : SameButBookkeeping s s') (x : Addr) (c : Cell) :
    SameButBookkeeping (s.noteAccess x c) (s'.noteAccess x c) := h

/-- FETCH and DECODE-LEFT set all five from the word at PC, so the two word cycles are the same from there. -/
theorem step_withBooksOf_of_fetches (hs : s.status = .running) (hw : s.Fetches w) (b : State) :
    step (s.withBooksOf b) = step s := by
  have hw' : (s.withBooksOf b).Fetches w := ⟨hw.notEnd, hw.notNoRoots, hw.inside, hw.cell, hw.notHalt, hw.below⟩
  have hdecoded : afterDecodeLeft (s.withBooksOf b) w = afterDecodeLeft s w := rfl
  rw [step_eq, step_eq, State.stepWord_eq hs hw, State.stepWord_eq (s := s.withBooksOf b) hs hw',
    State.fetched_decodeLeft, State.fetched_decodeLeft, hdecoded]

/-- The tests of FETCH and its read look at none of the five, so two engines stop there alike. -/
theorem fetchWord_withBooksOf_of_stopped {t : State} (h : s.fetchWord = .error t) (b : State) :
    ∃ t', (s.withBooksOf b).fetchWord = .error t' ∧ SameButBookkeeping t t' := by
  have hsame := sameButBookkeeping_withBooksOf s b
  by_cases hend : s.pc = s.cfg.haltPc
  · cases (State.fetchWord_end hend).symm.trans h
    exact ⟨_, State.fetchWord_end hend, hsame.halt _⟩
  by_cases hroots : s.pc = s.cfg.noRootsPc
  · cases (State.fetchWord_noRoots hend hroots).symm.trans h
    exact ⟨_, State.fetchWord_noRoots hend hroots, hsame.halt _⟩
  have hfault {f : EngineFault} (e : s.memReadWord s.pc = .error f)
      (e' : (s.withBooksOf b).memReadWord s.pc = .error f) :
      ∃ t', (s.withBooksOf b).fetchWord = .error t' ∧ SameButBookkeeping t t' := by
    cases (State.fetchWord_fault hend hroots e).symm.trans h
    exact ⟨_, State.fetchWord_fault (s := s.withBooksOf b) hend hroots e', hsame.raiseIn _ _⟩
  rcases s.memReadWord_cases s.pc with ⟨hout, e⟩ | ⟨hin, hc, e⟩ | ⟨v, hin, hc, e⟩ | ⟨w, hin, hc, -⟩
  · exact hfault e (State.memReadWord_outside hout)
  · exact hfault e (State.memReadWord_uninit hin hc)
  · exact hfault e (State.memReadWord_num hin hc)
  · by_cases hw : w = 0#40
    · subst hw
      cases (State.fetchWord_haltWord hend hroots hin hc).symm.trans h
      exact ⟨_, State.fetchWord_haltWord (s := s.withBooksOf b) hend hroots hin hc, (hsame.noteAccess _ _).halt _⟩
    · rcases Nat.lt_or_ge s.cyc s.cfg.maxCycles with hm | hm
      · cases (State.Fetches.fetchWord ⟨hend, hroots, hin, hc, hw, hm⟩).symm.trans h
      · cases (State.fetchWord_ceiling hend hroots hin hc hw hm).symm.trans h
        exact ⟨_, State.fetchWord_ceiling (s := s.withBooksOf b) hend hroots hin hc hw hm,
          (hsame.noteAccess _ _).raiseIn _ _⟩

/-- Settles O41: FETCH stops in the same way whatever the five hold, or the word at PC replaces them. -/
theorem resultsIgnoreTheBookkeepingRegisters : Obligations.ResultsIgnoreTheBookkeepingRegisters := by
  intro s s' h hs
  rw [h.eq_withBooksOf]
  rcases s.fetchWord_cases with ⟨t, e, -⟩ | ⟨w, -, hw⟩
  · obtain ⟨t', e', hsame⟩ := fetchWord_withBooksOf_of_stopped e s'
    exact ⟨t, t', step_stopped hs e, step_stopped (s := s.withBooksOf s') hs e', hsame⟩
  · obtain ⟨t, ht⟩ := step_answers hs
    exact ⟨t, t, ht, (step_withBooksOf_of_fetches hs hw s').trans ht, sameButBookkeeping_refl t⟩

end Bookkeeping

end Sys2Proof.Machine
end

section
/-! PROOF. The canonical memories (10_state.md section 7; log 8): a memory is determined by what it reads as, and
LoadProgram's writes are the words one after the other (70_reset_and_hazards.md R247). -/

namespace Sys2Proof.Machine

/-- The head of a canonical list is the only cell at its address and the lowest one listed. -/
theorem Memory.read_tail_of_wf {b : Nat} {c : Cell} {m : Memory} (h : Memory.wf ((b, c) :: m) = true) (a : Nat) :
    m.read a = if a ≤ b then .uninit else Memory.read ((b, c) :: m) a := by
  obtain ⟨-, hb, -⟩ := (Memory.wf_cons b c m).mp h
  split
  · exact Memory.read_below m a fun p hp => lt_of_le_of_lt ‹_› (hb p hp)
  · rw [Memory.read_cons, if_neg (by omega)]

/-- A canonical list with a head reads as something at the head's address, and as nothing below it. -/
theorem Memory.read_head_of_wf {b : Nat} {c : Cell} {m : Memory} (h : Memory.wf ((b, c) :: m) = true) :
    Memory.read ((b, c) :: m) b = c ∧ c ≠ .uninit ∧ ∀ a < b, Memory.read ((b, c) :: m) a = .uninit := by
  obtain ⟨hc, hb, -⟩ := (Memory.wf_cons b c m).mp h
  refine ⟨by rw [Memory.read_cons, if_pos rfl], hc, fun a ha => ?_⟩
  rw [Memory.read_cons, if_neg (by omega)]
  exact Memory.read_below m a fun p hp => ha.trans (hb p hp)

/-- Settles O43: the heads of two canonical lists are at the lowest address that reads as something, and hold what is
read there. -/
theorem canonicalMemoriesAreEqualData : Obligations.CanonicalMemoriesAreEqualData := by
  intro m
  induction m with
  | nil =>
    rintro (_ | ⟨⟨b, d⟩, m'⟩) - hm' h
    · rfl
    · obtain ⟨hd, hne, -⟩ := Memory.read_head_of_wf hm'
      exact absurd (hd.symm.trans (h b).symm) hne
  | cons p m ih =>
    obtain ⟨a, c⟩ := p
    rintro (_ | ⟨⟨b, d⟩, m'⟩) hm hm' h
    · obtain ⟨hc, hne, -⟩ := Memory.read_head_of_wf hm
      exact absurd (hc.symm.trans (h a)) hne
    · obtain ⟨hc, hcne, hbelow⟩ := Memory.read_head_of_wf hm
      obtain ⟨hd, hdne, hbelow'⟩ := Memory.read_head_of_wf hm'
      obtain rfl : a = b := by
        rcases lt_trichotomy a b with hab | hab | hab
        · exact absurd (hc.symm.trans ((h a).trans (hbelow' a hab))) hcne
        · exact hab
        · exact absurd (hd.symm.trans ((h b).symm.trans (hbelow b hab))) hdne
      obtain rfl : c = d := hc.symm.trans ((h a).trans hd)
      have htails : m = m' := by
        refine ih m' ((Memory.wf_cons a c m).mp hm).2.2 ((Memory.wf_cons a c m').mp hm').2.2 fun x => ?_
        rw [Memory.read_tail_of_wf hm, Memory.read_tail_of_wf hm', h x]
      rw [htails]

/-! ## LoadProgram's writes -/

theorem Memory.read_writeWords_outside (ws : List Word) (m : Memory) (base a : Nat)
    (h : a < base ∨ base + ws.length ≤ a) : (m.writeWords base ws).read a = m.read a := by
  induction ws generalizing m base with
  | nil => rfl
  | cons w ws ih =>
    rw [List.length_cons] at h
    rw [Memory.writeWords, ih _ _ (by omega), Memory.read_write_other _ _ _ _ (by omega)]

theorem Memory.read_writeWords_inside (ws : List Word) (m : Memory) (base k : Nat) (hk : k < ws.length) :
    (m.writeWords base ws).read (base + k) = .word ws[k] := by
  induction ws generalizing m base k with
  | nil => exact absurd hk (Nat.not_lt_zero k)
  | cons w ws ih =>
    cases k with
    | zero =>
      rw [Memory.writeWords, Memory.read_writeWords_outside _ _ _ _ (by omega)]
      exact Memory.read_write_of_ne_uninit m base Cell.noConfusion
    | succ k =>
      have hstep : base + (k + 1) = base + 1 + k := by omega
      rw [Memory.writeWords, hstep, ih _ _ k (Nat.lt_of_succ_lt_succ hk), List.getElem_cons_succ]

end Sys2Proof.Machine
end

section
/-! PROOF. The host (70_reset_and_hazards.md R240, R245 to R249): Reset in any status, and the four operations that are
refused while the engine runs. -/

namespace Sys2Proof.Machine

variable {s t : State} {a : Nat} {c : Cell} {r : Host.Outcome State Fault Refusal} {ws : List Word}

theorem State.hostWrite_running (hs : s.status = .running) : s.hostWrite r = .refused .hostWhileRunning := if_pos hs

theorem State.hostWrite_stopped (hs : s.status ≠ .running) : s.hostWrite r = r := if_neg hs

/-! ## What each operation answers while the engine does not run -/

theorem State.loadCell_ok (hs : s.status ≠ .running) (ha : a < s.cfg.memSize) (hc : c ≠ .uninit) :
    s.loadCell a c = .next { s with mem := s.mem.write a c } := by
  rw [State.loadCell, State.hostWrite_stopped hs, if_neg ha.not_ge, if_neg hc]

theorem State.loadProgram_ok (hs : s.status ≠ .running) (h : a + ws.length ≤ s.cfg.memSize) :
    s.loadProgram a ws = .next { s with mem := s.mem.writeWords a ws } := by
  rw [State.loadProgram, State.hostWrite_stopped hs, if_neg h.not_gt]

theorem State.loadProgram_outside (hs : s.status ≠ .running) (h : s.cfg.memSize < a + ws.length) :
    s.loadProgram a ws = .refused .loadOutsideMemory := by
  rw [State.loadProgram, State.hostWrite_stopped hs, if_pos h]

/-- Settles O57: the reset state is written out, with an empty memory. -/
theorem resetState : Obligations.ResetState := by
  have hreset (c : Config) : IsResetState c (State.resetWith c) :=
    ⟨rfl, rfl, rfl, rfl, rfl, rfl, rfl, rfl, rfl, rfl, rfl, Memory.read_nil⟩
  exact ⟨fun s => hreset s.cfg, hreset Config.default⟩

/-- Settles O58: the cell loaded is not `U`, so it reads back, and a write leaves every other address alone. -/
theorem hostOperationsWriteWhatTheyName : Obligations.HostOperationsWriteWhatTheyName := by
  intro s hs
  refine ⟨fun a c ha hc => ⟨_, State.loadCell_ok hs ha hc, rfl, ?_, fun b hb => ?_⟩,
    fun p => State.hostWrite_stopped hs, State.hostWrite_stopped hs⟩
  · exact Memory.read_write_of_ne_uninit s.mem a hc
  · exact Memory.read_write_other s.mem a b c hb

/-- Settles O59: the writes go up from `base`, one address a word, so none touches another's cell. -/
theorem loadProgramPlacesTheWords : Obligations.LoadProgramPlacesTheWords := by
  intro s base ws hs
  refine ⟨fun hfits => ⟨_, State.loadProgram_ok hs hfits, rfl, fun k hk => ?_, fun a ha => ?_⟩,
    fun hout => State.loadProgram_outside hs hout⟩
  · exact Memory.read_writeWords_inside ws s.mem base k hk
  · exact Memory.read_writeWords_outside ws s.mem base a ha

/-- Settles O60: the four are host writes. -/
theorem loadsSetPcAndStartAreRefusedWhileRunning : Obligations.LoadsSetPcAndStartAreRefusedWhileRunning :=
  fun _ hs => ⟨fun _ _ => State.hostWrite_running hs, fun _ _ => State.hostWrite_running hs,
    fun _ => State.hostWrite_running hs, State.hostWrite_running hs⟩

/-! ## The invariant -/

theorem State.hostWrite_next (h : s.hostWrite r = .next t) : r = .next t := by
  by_cases hs : s.status = .running
  · cases (State.hostWrite_running hs).symm.trans h
  · exact (State.hostWrite_stopped hs).symm.trans h

theorem State.Inv.loadCell (hs : s.Inv) (h : s.loadCell a c = .next t) : t.Inv := by
  obtain ⟨hwf, hwithin, hcyc, hphase⟩ := hs
  have h := State.hostWrite_next h
  split at h
  case isTrue => cases h
  case isFalse hin =>
    split at h <;> cases h
    exact ⟨Memory.wf_write s.mem a c hwf, Memory.within_write s.mem a _ c hwithin (Nat.not_le.mp hin), hcyc, hphase⟩

theorem State.Inv.loadProgram (hs : s.Inv) (h : s.loadProgram a ws = .next t) : t.Inv := by
  obtain ⟨hwf, hwithin, hcyc, hphase⟩ := hs
  have h := State.hostWrite_next h
  split at h <;> cases h
  obtain ⟨hwf', hwithin'⟩ := Memory.writeWords_keeps ws s.mem a s.cfg.memSize hwf hwithin (by omega)
  exact ⟨hwf', hwithin', hcyc, hphase⟩

/-- Settles O34: the loads write inside memory; SetPC and Start write nothing the invariant speaks of but CYC = 0 and the
phase FETCH. -/
theorem hostOperationsKeepTheInvariant : Obligations.HostOperationsKeepTheInvariant := by
  intro s t hs
  have ⟨hwf, hwithin, _, _⟩ := hs
  refine ⟨resetWith_inv s.cfg, fun a c => hs.loadCell, fun b ws => hs.loadProgram, fun p h => ?_, fun h => ?_⟩
  · cases State.hostWrite_next h
    exact hs
  · cases State.hostWrite_next h
    exact ⟨hwf, hwithin, Nat.zero_le _, rfl⟩

end Sys2Proof.Machine
end

section
/-! PROOF. How a line is split into tokens (35_encoder.md R112): at runs of blanks and nowhere else. -/

namespace Sys2Proof.Machine

variable {b c : Char}

theorem tokens_blanks {bs : List Char} (h : ∀ c ∈ bs, isBlank c = true) (cs : List Char) :
    tokens (bs ++ cs) = tokens cs := by
  induction bs with
  | nil => rfl
  | cons b bs ih =>
    rw [List.cons_append, tokens_blank (h b (by simp)), ih fun c hc => h c (List.mem_cons_of_mem b hc)]

/-- A text that does not begin with a blank has a first token. -/
theorem tokens_cons_ne_nil (hc : isBlank c = false) (cs : List Char) : ∃ t ts, tokens (c :: cs) = t :: ts := by
  induction cs generalizing c with
  | nil => exact ⟨_, _, tokens_single hc⟩
  | cons d cs ih =>
    by_cases hd : isBlank d = true
    · exact ⟨_, _, tokens_before_blank hc hd cs⟩
    · have hd : isBlank d = false := Bool.eq_false_iff.mpr hd
      obtain ⟨t, ts, e⟩ := ih hd
      exact ⟨_, _, tokens_grow hc hd e⟩

/-- A blank ends the token before it, and what follows is split on its own. -/
theorem tokens_append_blank (hb : isBlank b = true) (cs es : List Char) :
    tokens (cs ++ b :: es) = tokens cs ++ tokens es := by
  induction cs with
  | nil => exact tokens_blank hb es
  | cons c cs ih =>
    by_cases hc : isBlank c = true
    · rw [List.cons_append, tokens_blank hc, tokens_blank hc, ih]
    · have hc : isBlank c = false := Bool.eq_false_iff.mpr hc
      cases cs with
      | nil =>
        rw [List.singleton_append, tokens_before_blank hc hb, tokens_blank hb, tokens_single hc, List.singleton_append]
      | cons d cs =>
        by_cases hd : isBlank d = true
        · rw [List.cons_append, List.cons_append, tokens_before_blank hc hd, tokens_before_blank hc hd,
            ← List.cons_append, ih, List.cons_append]
        · have hd : isBlank d = false := Bool.eq_false_iff.mpr hd
          obtain ⟨t, ts, e⟩ := tokens_cons_ne_nil hd cs
          have e' : tokens (d :: (cs ++ b :: es)) = t :: (ts ++ tokens es) := by
            rw [← List.cons_append, ih, e, List.cons_append]
          rw [List.cons_append, List.cons_append, tokens_grow hc hd e', tokens_grow hc hd e, List.cons_append]

theorem isBlank_iff : isBlank c = true ↔ c = ' ' ∨ c = '\t' := by
  simp [isBlank]

/-- Settles O56: the first blank of the run ends a token, the others count for nothing. -/
theorem blanksOnlySeparateTokens : Obligations.BlanksOnlySeparateTokens := by
  refine ⟨fun bs cs es hbs hne => ?_, fun cs hne hcs => tokens_blankFree hne (blankFree_iff.mpr hcs)⟩
  have hblank : ∀ c ∈ bs, isBlank c = true := fun c hc => isBlank_iff.mpr (hbs c hc)
  have hbetween (es : List Char) : tokens (cs ++ bs ++ es) = tokens cs ++ tokens es := by
    obtain ⟨b, bs, rfl⟩ := List.exists_cons_of_ne_nil hne
    rw [List.append_assoc, List.cons_append, tokens_append_blank (hblank b List.mem_cons_self),
      tokens_blanks fun c hc => hblank c (List.mem_cons_of_mem b hc)]
  exact ⟨tokens_blanks hblank cs, by simpa [tokens_nil] using hbetween [], hbetween es⟩

end Sys2Proof.Machine
end

section
/-! PROOF. The words of HALT, OP M(n), LOAD -M(n), LOAD MQ and the composite lines (35_encoder.md R114, R118 to R122), and
the operands too wide for their fields (R123). -/

namespace Sys2Proof.Machine

variable {t : OpcodeTable} {l r ds es : List Char} {i j : SrcInstr} {n m : Nat}

/-! ## Texts of one instruction with two tokens (R113, rows 2 to 7) -/

/-- The text is two tokens with a blank between, and they are the instruction `i`. -/
def Spells (l : List Char) (i : SrcInstr) : Prop :=
  ∃ op arg, l = op ++ ' ' :: arg ∧ IsToken op ∧ IsToken arg ∧ classifyTwo op arg = some i

theorem isToken_memOpName (op : MemOp) : IsToken (memOpName op) := by
  cases op <;> simp [memOpName, IsToken, isBlank]

theorem classifyTwo_memOpName (op : MemOp) (arg : Token) :
    classifyTwo (memOpName op) arg = (tokMref arg).map (.mem op) := by
  have h := memOp?_memOpName op
  cases op <;> simp_all [classifyTwo, memOpName]

theorem memOpLine_eq (op : MemOp) (ds : List Char) :
    memOpLine op ds = memOpName op ++ ' ' :: 'M' :: '(' :: (ds ++ [')']) := by
  cases op <;> simp [memOpLine, memOpText, memOpName]

theorem spells_memOp (op : MemOp) (h : IsDec ds n) : Spells (memOpLine op ds) (.mem op n) := by
  refine ⟨_, _, memOpLine_eq op ds, isToken_memOpName op, by simp [IsToken, isBlank, h.blankFree], ?_⟩
  rw [classifyTwo_memOpName, tokMref_mref h.ne_nil h.isDigit h.decValue, Option.map_some]

theorem spells_loadNeg (h : IsDec ds n) : Spells (loadNegLine ds) (.loadNeg n) := by
  refine ⟨['L', 'O', 'A', 'D'], '-' :: 'M' :: '(' :: (ds ++ [')']), by simp [loadNegLine], by simp [IsToken, isBlank],
    by simp [IsToken, isBlank, h.blankFree], ?_⟩
  simp [classifyTwo, tokMqMref, readLit, tokNegMref_mref h.ne_nil h.isDigit h.decValue]

theorem spells_loadMq : Spells "LOAD MQ".toList .loadMq :=
  ⟨['L', 'O', 'A', 'D'], ['M', 'Q'], by simp, by simp [IsToken, isBlank], by simp [IsToken, isBlank], rfl⟩

theorem Spells.encodeLine (h : Spells l i) :
    encodeLine t l = if i.wf then .ok (encodeSingle t (toInstr i)) else .error .operandRange := by
  obtain ⟨op, arg, rfl, hop, harg, hi⟩ := h
  exact encodeLine_of_classifyTwo_some hop harg hi

/-! ## Composite lines (R113, rows 8 to 10; R122) -/

/-- The pairs of instructions that a line may be composed of. -/
inductive Composes : SrcInstr → SrcInstr → Prop where
  | loadNeg (n : Nat) (op : MemOp) (m : Nat) : Composes (.loadNeg n) (.mem op m)
  | mulLoadMq (n : Nat) : Composes (.mem .mul n) .loadMq
  | memOps (op : MemOp) (n : Nat) (op' : MemOp) (m : Nat) : Composes (.mem op n) (.mem op' m)

theorem Composes.classifyFour {op₁ arg₁ op₂ arg₂ : Token} (h : Composes i j) (hi : classifyTwo op₁ arg₁ = some i)
    (hj : classifyTwo op₂ arg₂ = some j) : classifyFour op₁ arg₁ op₂ arg₂ = some (.composite i j) := by
  cases h <;> simp [Machine.classifyFour, hi, hj]

theorem tokens_compositeLine (hl : Spells l i) (hr : Spells r j) :
    ∃ op₁ arg₁ op₂ arg₂, tokens (compositeLine l r) = [op₁, arg₁, op₂, arg₂] ∧
      classifyTwo op₁ arg₁ = some i ∧ classifyTwo op₂ arg₂ = some j := by
  obtain ⟨op₁, arg₁, rfl, hop₁, harg₁, hi⟩ := hl
  obtain ⟨op₂, arg₂, rfl, hop₂, harg₂, hj⟩ := hr
  refine ⟨op₁, arg₁, op₂, arg₂, ?_, hi, hj⟩
  rw [compositeLine, tokens_append_blank rfl, tokens_two hop₁ harg₁, tokens_two hop₂ harg₂]
  rfl

theorem Composes.encodeLine (h : Composes i j) (hl : Spells l i) (hr : Spells r j) :
    encodeLine t (compositeLine l r) =
      if i.wf && j.wf then .ok (encodePair t (toInstr i) (toInstr j)) else .error .operandRange := by
  obtain ⟨op₁, arg₁, op₂, arg₂, htokens, hi, hj⟩ := tokens_compositeLine hl hr
  rw [Machine.encodeLine, htokens, classify, h.classifyFour hi hj]
  rfl

/-! ## The words -/

theorem encodeSlot_memOp (t : OpcodeTable) (op : MemOp) (n : Nat) :
    encodeSlot t (toInstr (.mem op n)) = mkSlot (memOpOpcode t op) (BitVec.ofNat 12 n) := by
  cases op <;> rfl

theorem encodeSingle_loadMq (t : OpcodeTable) : encodeSingle t .loadMq = t.loadMq ++ 0#32 := by
  have h : mkWord (mkSlot t.loadMq 0#12) 0#20 = t.loadMq ++ (0#12 ++ 0#20) := by
    rw [mkWord, mkSlot, BitVec.append_assoc, BitVec.cast_eq]
  exact h

theorem encodeLine_halt (ht : t.WF) : encodeLine t "HALT".toList = .ok 0#40 := by
  have htokens : tokens "HALT".toList = [['H', 'A', 'L', 'T']] := tokens_blankFree (by simp) (by simp [isBlank])
  have hword : encodeSingle t .halt = mkWord (mkSlot 0#8 0#12) 0#20 := by rw [← ht.1]; rfl
  rw [encodeLine, htokens]
  exact congrArg Except.ok hword

/-! The range check of R123, and the lines that pass it or do not. -/

theorem wf_loadMq : SrcInstr.loadMq.wf = true := rfl

theorem wf_loadNeg_iff : (SrcInstr.loadNeg n).wf = true ↔ n < 4096 := decide_eq_true_iff

theorem wf_mem_iff {op : MemOp} : (SrcInstr.mem op n).wf = true ↔ n < 4096 := decide_eq_true_iff

theorem encodeLine_memOp (op : MemOp) (h : IsDec ds n) :
    encodeLine t (memOpLine op ds) =
      if n < 4096 then .ok (memOpOpcode t op ++ BitVec.ofNat 12 n ++ 0#20) else .error .operandRange := by
  rw [(spells_memOp op h).encodeLine, encodeSingle, encodeSlot_memOp]
  simp only [wf_mem_iff]
  rfl

theorem encodeLine_loadNeg (h : IsDec ds n) :
    encodeLine t (loadNegLine ds) =
      if n < 4096 then .ok (t.loadNeg ++ BitVec.ofNat 12 n ++ 0#20) else .error .operandRange := by
  rw [(spells_loadNeg h).encodeLine]
  simp only [wf_loadNeg_iff]
  rfl

theorem encodeLine_mul_loadMq (h : IsDec ds n) :
    encodeLine t (compositeLine (memOpLine .mul ds) "LOAD MQ".toList) =
      if n < 4096 then .ok (t.mul ++ BitVec.ofNat 12 n ++ t.loadMq ++ 0#12) else .error .operandRange := by
  rw [(Composes.mulLoadMq n).encodeLine (spells_memOp .mul h) spells_loadMq, append_fields_eq_mkWord]
  simp only [wf_loadMq, Bool.and_true, wf_mem_iff]
  rfl

theorem encodeLine_loadNeg_memOp (op : MemOp) (h : IsDec ds n) (h' : IsDec es m) :
    encodeLine t (compositeLine (loadNegLine ds) (memOpLine op es)) =
      if n < 4096 ∧ m < 4096 then
        .ok (t.loadNeg ++ BitVec.ofNat 12 n ++ memOpOpcode t op ++ BitVec.ofNat 12 m)
      else .error .operandRange := by
  rw [(Composes.loadNeg n op m).encodeLine (spells_loadNeg h) (spells_memOp op h'), append_fields_eq_mkWord,
    encodePair, encodeSlot_memOp]
  simp only [Bool.and_eq_true, wf_loadNeg_iff, wf_mem_iff]
  rfl

theorem encodeLine_memOp_memOp (op op' : MemOp) (h : IsDec ds n) (h' : IsDec es m) :
    encodeLine t (compositeLine (memOpLine op ds) (memOpLine op' es)) =
      if n < 4096 ∧ m < 4096 then
        .ok (memOpOpcode t op ++ BitVec.ofNat 12 n ++ memOpOpcode t op' ++ BitVec.ofNat 12 m)
      else .error .operandRange := by
  rw [(Composes.memOps op n op' m).encodeLine (spells_memOp op h) (spells_memOp op' h'), append_fields_eq_mkWord,
    encodePair, encodeSlot_memOp, encodeSlot_memOp]
  simp only [Bool.and_eq_true, wf_mem_iff]

/-! ## The obligations -/

/-- Settles O51: each line in range is the word of its one or two slots. -/
theorem memopAndCompositeLinesEncode : Obligations.MemopAndCompositeLinesEncode := by
  intro t
  refine ⟨encodeLine_halt, spells_loadMq.encodeLine.trans (congrArg Except.ok (encodeSingle_loadMq t)),
    fun ds n h hn => ?_⟩
  have hn : n < 4096 := Nat.lt_succ_of_le hn
  refine ⟨(encodeLine_loadNeg h).trans (if_pos hn), (encodeLine_mul_loadMq h).trans (if_pos hn),
    fun op => (encodeLine_memOp op h).trans (if_pos hn), fun op es m h' hm => ?_⟩
  have hnm : n < 4096 ∧ m < 4096 := ⟨hn, Nat.lt_succ_of_le hm⟩
  exact ⟨(encodeLine_loadNeg_memOp op h h').trans (if_pos hnm),
    fun op' => (encodeLine_memOp_memOp op' op h h').trans (if_pos hnm)⟩

/-- Settles O52: each line has its form whatever the operands, and the range check comes after. -/
theorem tooWideAnOperandIsRefused : Obligations.TooWideAnOperandIsRefused := by
  intro t
  refine ⟨fun ds n h hn => ?_, fun da db dc a b c ha hb hc hwide => ?_, fun ds n es m op h h' hwide => ?_⟩
  · have hn : ¬ n < 4096 := by omega
    exact ⟨(encodeLine_jumpPlus h).trans (if_neg hn), (encodeLine_loadMqMem h).trans (if_neg hn),
      (encodeLine_loadNeg h).trans (if_neg hn), (encodeLine_mul_loadMq h).trans (if_neg hn),
      fun op => (encodeLine_memOp op h).trans (if_neg hn)⟩
  · exact (encodeLine_disc ha hb hc).trans (if_neg (by omega))
  · have hnm : ¬ (n < 4096 ∧ m < 4096) := by omega
    exact ⟨(encodeLine_loadNeg_memOp op h h').trans (if_neg hnm),
      fun op' => (encodeLine_memOp_memOp op' op h h').trans (if_neg hnm)⟩

end Sys2Proof.Machine
end

section
/-! PROOF. Whole lines and whole programs: an accepted line's word decodes to the line (35_encoder.md R124), and a program is
encoded line by line up to the first EXIT or the first error (R110, R111, R125). -/

namespace Sys2Proof.Machine

variable {t : OpcodeTable} {line e : List Char} {pre rest : List (List Char)} {w : Word} {ws : List Word}
  {c : EncodingCause}

/-! ## An accepted line -/

/-- A line that encodes has a form, its operands are in range, and the word is the form's. -/
theorem encodeLine_ok (h : encodeLine t line = .ok w) :
    ∃ l, classify (tokens line) = some l ∧ l.wf = true ∧ w = encodeSrc t l := by
  rw [encodeLine] at h
  split at h
  case h_1 => cases h
  case h_2 l hl =>
    split at h <;> cases h
    exact ⟨l, hl, ‹_›, rfl⟩

theorem toNat_ofNat_of_wf {k n : Nat} (h : decide (n < 2 ^ k) = true) : (BitVec.ofNat k n).toNat = n :=
  (BitVec.toNat_ofNat n k).trans (Nat.mod_eq_of_lt (of_decide_eq_true h))

/-- An operand in range is the number in its field. -/
theorem sameInstr_toInstr (i : SrcInstr) (h : i.wf = true) : SameInstr i (toInstr i) := by
  cases i with
  | halt => rfl
  | loadMq => rfl
  | jumpPlus n => exact ⟨_, rfl, toNat_ofNat_of_wf (k := 12) h⟩
  | loadMqMem n => exact ⟨_, rfl, toNat_ofNat_of_wf (k := 12) h⟩
  | loadNeg n => exact ⟨_, rfl, toNat_ofNat_of_wf (k := 12) h⟩
  | mem op n => cases op <;> exact ⟨_, rfl, toNat_ofNat_of_wf (k := 12) h⟩
  | disc a b c =>
    simp only [SrcInstr.wf, Bool.and_eq_true] at h
    obtain ⟨⟨ha, hb⟩, hc⟩ := h
    exact ⟨_, _, _, rfl, toNat_ofNat_of_wf (k := 4) ha, toNat_ofNat_of_wf (k := 4) hb,
      toNat_ofNat_of_wf (k := 4) hc⟩

/-- Settles O53: the slots of the word are the encodings of the line's instructions, or all zero on the right. -/
theorem encodedLinesDecodeToTheirInstructions : Obligations.EncodedLinesDecodeToTheirInstructions := by
  intro t line w ht h
  obtain ⟨l, hl, hwf, rfl⟩ := encodeLine_ok h
  cases l with
  | single a =>
    have hright : decodeSlot t (rightSlot (encodeSingle t (toInstr a))) = .instr .halt := by
      rw [encodeSingle, rightSlot_mkWord]
      exact decodeSlot_zero_opcode ht rfl
    exact ⟨_, toInstr a, .halt, hl, decodeSlot_left_of_pair ht rfl, hright, sameInstr_toInstr a hwf, rfl⟩
  | composite a b =>
    obtain ⟨ha, hb⟩ := Bool.and_eq_true_iff.mp hwf
    exact ⟨_, toInstr a, toInstr b, hl, decodeSlot_left_of_pair ht rfl, decodeSlot_right_of_pair ht rfl,
      sameInstr_toInstr a ha, sameInstr_toInstr b hb⟩

/-! ## A program -/

theorem encodeFrom_exit (he : tokens e = ["EXIT".toList]) (n : Nat) : encodeFrom t n (e :: rest) = .ok [] := by
  rw [encodeFrom, if_pos (by simpa using he)]

theorem encodeFrom_error (hne : tokens line ≠ ["EXIT".toList]) (h : encodeLine t line = .error c) (n : Nat) :
    encodeFrom t n (line :: rest) = .error ⟨c, n⟩ := by
  rw [encodeFrom, if_neg (by simpa using hne), h]

theorem encodeFrom_line (hne : tokens line ≠ ["EXIT".toList]) (h : encodeLine t line = .ok w) (n : Nat) :
    encodeFrom t n (line :: rest) = (encodeFrom t (n + 1) rest).map (w :: ·) := by
  rw [encodeFrom, if_neg (by simpa using hne), h]
  cases encodeFrom t (n + 1) rest <;> rfl

/-- The lines before the first EXIT that encode, one after the other, are the program. -/
theorem encodeFrom_of_lines (hne : ∀ l ∈ pre, tokens l ≠ ["EXIT".toList])
    (hws : List.Forall₂ (fun l w => encodeLine t l = .ok w) pre ws) (he : tokens e = ["EXIT".toList]) (n : Nat) :
    encodeFrom t n (pre ++ e :: rest) = .ok ws := by
  induction hws generalizing n with
  | nil => exact encodeFrom_exit he n
  | cons h _ ih =>
    obtain ⟨hne, hrest⟩ := List.forall_mem_cons.mp hne
    rw [List.cons_append, encodeFrom_line hne h, ih hrest]
    rfl

/-- And a program that encodes has such lines. -/
theorem lines_of_encodeFrom {lines : List (List Char)} {n : Nat} (h : encodeFrom t n lines = .ok ws) :
    ∃ pre e rest, lines = pre ++ e :: rest ∧ tokens e = ["EXIT".toList] ∧
      (∀ l ∈ pre, tokens l ≠ ["EXIT".toList]) ∧ List.Forall₂ (fun l w => encodeLine t l = .ok w) pre ws := by
  induction lines generalizing n ws with
  | nil => cases h
  | cons l lines ih =>
    by_cases hexit : tokens l = ["EXIT".toList]
    · cases (encodeFrom_exit hexit n).symm.trans h
      exact ⟨[], l, lines, rfl, hexit, List.forall_mem_nil _, .nil⟩
    · rcases hl : encodeLine t l with c | w
      · cases (encodeFrom_error hexit hl n).symm.trans h
      · rw [encodeFrom_line hexit hl n] at h
        rcases hrest : encodeFrom t (n + 1) lines with c | ws' <;> rw [hrest] at h <;> cases h
        obtain ⟨pre, e, rest, rfl, he, hpre, hws⟩ := ih hrest
        exact ⟨l :: pre, e, rest, rfl, he, List.forall_mem_cons.mpr ⟨hexit, hpre⟩, .cons hl hws⟩

/-- Settles O54: the two directions, at line number 1. -/
theorem encodeProgramKeepsTheLineOrder : Obligations.EncodeProgramKeepsTheLineOrder := by
  intro t lines ws
  refine ⟨lines_of_encodeFrom, ?_⟩
  rintro ⟨pre, e, rest, rfl, he, hne, hws⟩
  exact encodeFrom_of_lines hne hws he 1

theorem encodeFrom_first_error (hpre : ∀ l ∈ pre, tokens l ≠ ["EXIT".toList] ∧ ∃ w, encodeLine t l = .ok w)
    (hne : tokens line ≠ ["EXIT".toList]) (h : encodeLine t line = .error c) (n : Nat) :
    encodeFrom t n (pre ++ line :: rest) = .error ⟨c, pre.length + n⟩ := by
  induction pre generalizing n with
  | nil => rw [List.nil_append, encodeFrom_error hne h, List.length_nil, Nat.zero_add]
  | cons l pre ih =>
    obtain ⟨⟨hl, w, hw⟩, hpre⟩ := List.forall_mem_cons.mp hpre
    have hnum : pre.length + (n + 1) = (l :: pre).length + n := by
      rw [List.length_cons]
      omega
    rw [List.cons_append, encodeFrom_line hl hw, ih hpre, hnum]
    rfl

/-- Settles O55: the lines before it are passed over, each counted once. -/
theorem theFirstEncodingErrorIsReported : Obligations.TheFirstEncodingErrorIsReported := by
  intro t pre rest line c hpre hne h
  exact encodeFrom_first_error hpre hne h 1

end Sys2Proof.Machine
end
